-- ==== Sys2Proof/Config.lean ====
section
/-!
DEFINITION. What an implementation of the core fixes: the parameters of spec/00_scope.md R7, each a
named constant (92_eei_decisions.md D33), and the three parameters the spec leaves open: `RND` (R8,
D14), `FONT_TABLE` (R8, D15) and `VF_ALIAS_READING` (42_alu.md R139, D11).

Every width and size of a type is taken from the constant that names it.  `delta% c` is the number the
constant `c` stands for, so that a type reads `Fin (delta% Config.numV)` here and is `Fin 16` in Lean:
a corrected constant changes the type, and a proof meets a numeral.
-/

namespace Sys2Proof

/-- MEM_SIZE: the number of bytes of memory (R7). -/
@[simp] def Config.memSize : Nat := 4096

/-- NUM_V: the number of general registers (R7). -/
@[simp] def Config.numV : Nat := 16

/-- The width of a general register, and of a memory byte, in bits (R7). -/
@[simp] def Config.vWidth : Nat := 8

/-- FLAG_REG: register 15, `VF` (R7). -/
@[simp] def Config.flagReg : Fin (delta% Config.numV) := 15

/-- I_WIDTH: the width of the index register in bits (R7). -/
@[simp] def Config.iWidth : Nat := 16

/-- PC_WIDTH: the width of the program counter in bits (R7). -/
@[simp] def Config.pcWidth : Nat := 16

/-- STACK_DEPTH: the number of call-stack entries (R7). -/
@[simp] def Config.stackDepth : Nat := 16

/-- The width of a call-stack entry in bits (R7). -/
@[simp] def Config.stackEntryWidth : Nat := 16

/-- SP_WIDTH: the width of the stack pointer in bits (R7). -/
@[simp] def Config.spWidth : Nat := 8

/-- TIMER_WIDTH: the width of each timer in bits (R7). -/
@[simp] def Config.timerWidth : Nat := 8

/-- NUM_KEYS: the number of keypad slots (R7). -/
@[simp] def Config.numKeys : Nat := 16

/-- FB_WIDTH: the pixels of a row (R7). -/
@[simp] def Config.fbWidth : Nat := 64

/-- FB_HEIGHT: the rows of the framebuffer (R7). -/
@[simp] def Config.fbHeight : Nat := 32

/-- FB_WIDTH x FB_HEIGHT, written out as R7 does: 2048 cells. -/
@[simp] def Config.fbCells : Nat := 2048

/-- The written number is the product: a change of either factor stops the build here (R7). -/
theorem Config.fbCells_eq : Config.fbCells = Config.fbWidth * Config.fbHeight := rfl

/-- FONT_BASE: where the font stands (R7). -/
@[simp] def Config.fontBase : Nat := 0x050

/-- FONT_GLYPHS: the number of glyphs (R7). -/
@[simp] def Config.fontGlyphs : Nat := 16

/-- FONT_GLYPH_BYTES: the bytes of a glyph (R7). -/
@[simp] def Config.fontGlyphBytes : Nat := 5

/-- FONT_GLYPHS x FONT_GLYPH_BYTES, written out as R7 does: 80 bytes. -/
@[simp] def Config.fontBytes : Nat := 80

/-- The written number is the product: a change of either factor stops the build here (R7). -/
theorem Config.fontBytes_eq : Config.fontBytes = Config.fontGlyphs * Config.fontGlyphBytes := rfl

/-- PROG_BASE: where a program is loaded (R7). -/
@[simp] def Config.progBase : Nat := 0x200

/-- PROG_MAX: the 3584 bytes a program can have (R7). -/
@[simp] def Config.progMax : Nat := Config.memSize - Config.progBase

/-- INSN_BYTES: the bytes of an instruction (R7). -/
@[simp] def Config.insnBytes : Nat := 2

/-- PC_WRAP_POINT: the one `pc` value that wraps before a fetch (R7). -/
@[simp] def Config.pcWrapPoint : Nat := 4096

/-- A font table: FONT_GLYPHS glyphs of FONT_GLYPH_BYTES bytes (R7, R8). -/
abbrev FontTable := Vector (BitVec (delta% Config.vWidth)) (delta% Config.fontBytes)

/-- `RND` (R8, 42_alu.md R152, D14): the bytes that `random_byte()` returns, one for each number of
draws taken so far.  A FREE VALUE: it has no body, so no proof can know a byte of it, and a claim
about one run holds for every sequence of draws (log entry 5: DESIGN CHOICE, safe).  Two runs with
equal counters draw equal bytes, which the spec says not to assume (91_not_in_source.md, Random
generator; log entry 17: DESIGN CHOICE, unsafe for a claim that compares two runs). -/
opaque Config.randomByte : Nat → BitVec (delta% Config.vWidth)

/-- The default `FONT_TABLE` (70_reset_and_hazards.md R276), glyph d at bytes 5 d to 5 d + 4.
PRESUMED, unsafe (log entry 6): the spec marks these bytes as general knowledge, so a claim about
glyph pixels takes the table as an argument instead of this default. -/
def Config.defaultFont : FontTable := #v[
  0xF0, 0x90, 0x90, 0x90, 0xF0,   0x20, 0x60, 0x20, 0x20, 0x70,
  0xF0, 0x10, 0xF0, 0x80, 0xF0,   0xF0, 0x10, 0xF0, 0x10, 0xF0,
  0x90, 0x90, 0xF0, 0x10, 0x10,   0xF0, 0x80, 0xF0, 0x10, 0xF0,
  0xF0, 0x80, 0xF0, 0x90, 0xF0,   0xF0, 0x10, 0x20, 0x40, 0x40,
  0xF0, 0x90, 0xF0, 0x90, 0xF0,   0xF0, 0x90, 0xF0, 0x10, 0xF0,
  0xF0, 0x90, 0xF0, 0x90, 0x90,   0xE0, 0x90, 0xE0, 0x90, 0xE0,
  0xF0, 0x80, 0x80, 0x80, 0xF0,   0xE0, 0x90, 0x90, 0x90, 0xE0,
  0xF0, 0x80, 0xF0, 0x80, 0xF0,   0xF0, 0x80, 0xF0, 0x80, 0x80]

/-- `VF_ALIAS_READING` (42_alu.md R139, D11): how an instruction that writes VF as a flag reads and
writes when it also names register 15 as x or y. -/
inductive VfReading where
  | sequential      -- the statements in the listed order, each reading what the earlier ones left
  | operandsFirst   -- both operands read first, then VF written, then V[x]
  | flagLast        -- both operands read first, then V[x] written, then VF
  deriving DecidableEq, Repr

/-- The spec's default reading, SEQUENTIAL (R139; log entry 7: UNVERIFIED, unsafe). -/
def Config.defaultVfReading : VfReading := .sequential

end Sys2Proof
end

