-- ==== Sys2Proof/Word.lean ====
section
/-!
DEFINITION. The word types of the CHIP-8 core, the register, key and stack-entry numbers, and the
arrays, each of the width or size its parameter of Config names (spec/00_scope.md R7); operand fields:
spec/30_encoding.md R72.
-/

namespace Sys2Proof

/-- Four bits: one of `d1 d2 d3 d4`, or the sprite height `n` (R9, R72). -/
abbrev Nibble := BitVec 4

/-- A general register, a memory byte, the immediate `kk` (R7, R10, R72). -/
abbrev Byte := BitVec (delta% Config.vWidth)

/-- The 12-bit address field `nnn` (R72). -/
abbrev Addr := BitVec 12

/-- An opcode, and what a fault names (R9, R10). -/
abbrev Word := BitVec 16

/-- The index register (R7). -/
abbrev IndexWord := BitVec (delta% Config.iWidth)

/-- The program counter (R7). -/
abbrev PcWord := BitVec (delta% Config.pcWidth)

/-- A call-stack entry (R7). -/
abbrev StackEntry := BitVec (delta% Config.stackEntryWidth)

/-- The stack pointer (R7). -/
abbrev StackPtr := BitVec (delta% Config.spWidth)

/-- A timer (R7). -/
abbrev Timer := BitVec (delta% Config.timerWidth)

/-- A register number 0 to 15 (R7, 10_state.md R20). -/
abbrev Reg := Fin (delta% Config.numV)

/-- A keypad slot number 0 to 15 (R7, 10_state.md R32). -/
abbrev Key := Fin (delta% Config.numKeys)

/-- A call-stack entry's number 0 to 15 (R7, 10_state.md R28). -/
abbrev StackSlot := Fin (delta% Config.stackDepth)

/-- The general registers (R7, 10_state.md R20). -/
abbrev RegFile := Vector Byte (delta% Config.numV)

/-- The call stack (R7, 10_state.md R28). -/
abbrev CallStack := Vector StackEntry (delta% Config.stackDepth)

/-- The keypad slots, true for pressed (R7, 10_state.md R32). -/
abbrev Keypad := Vector Bool (delta% Config.numKeys)

/-- The framebuffer: rows of pixels, true for on (R7, 10_state.md R33; log entry 14: DESIGN CHOICE,
safe). -/
abbrev Screen := Vector (Vector Bool (delta% Config.fbWidth)) (delta% Config.fbHeight)

/-- The host's view of the framebuffer: one one-bit cell for each pixel (60_exceptions.md R253). -/
abbrev FramebufferView := Vector (BitVec 1) (delta% Config.fbCells)

/-- `zext_16(nnn)`: the 12-bit address as a 16-bit value (R10, R72). -/
abbrev Addr.zext (a : Addr) : Word := a.setWidth 16

/-- An 8-bit value as a 16-bit value, its number unchanged (R10). -/
abbrev Byte.zext (b : Byte) : Word := b.setWidth 16

end Sys2Proof
end

