-- ==== Sys2Proof/Syntax.lean ====
section
/-!
DEFINITION. The instructions of the core: one constructor for each of the 34 rows of
spec/opcode_table.json (spec/30_encoding.md R76).  Operand types are the fields of R72, so an
operand of a wrong width cannot be written.  The 21582 unmatched words (R77) are no instruction:
decode answers none for them and the step runs the no-op of R75 (log entry 2: DESIGN CHOICE, safe).
-/

namespace Sys2Proof

/-- The 34 instructions (R76), in the table's order. -/
inductive Instr where
  | cls                               -- 00E0
  | ret                               -- 00EE
  | jp (nnn : Addr)                   -- 1nnn
  | call (nnn : Addr)                 -- 2nnn
  | seImm (x : Reg) (kk : Byte)       -- 3xkk
  | sneImm (x : Reg) (kk : Byte)      -- 4xkk
  | seReg (x y : Reg)                 -- 5xy0
  | ldImm (x : Reg) (kk : Byte)       -- 6xkk
  | addImm (x : Reg) (kk : Byte)      -- 7xkk
  | ldReg (x y : Reg)                 -- 8xy0
  | orReg (x y : Reg)                 -- 8xy1
  | andReg (x y : Reg)                -- 8xy2
  | xorReg (x y : Reg)                -- 8xy3
  | addReg (x y : Reg)                -- 8xy4
  | subReg (x y : Reg)                -- 8xy5
  | shr (x y : Reg)                   -- 8xy6, y decoded and ignored
  | subnReg (x y : Reg)               -- 8xy7
  | shl (x y : Reg)                   -- 8xyE, y decoded and ignored
  | sneReg (x y : Reg)                -- 9xy0
  | ldI (nnn : Addr)                  -- Annn
  | jpV0 (nnn : Addr)                 -- Bnnn
  | rnd (x : Reg) (kk : Byte)         -- Cxkk
  | drw (x y : Reg) (n : Nibble)      -- Dxyn
  | skp (x : Reg)                     -- Ex9E
  | sknp (x : Reg)                    -- ExA1
  | ldVxDT (x : Reg)                  -- Fx07
  | ldVxK (x : Reg)                   -- Fx0A
  | ldDTVx (x : Reg)                  -- Fx15
  | ldSTVx (x : Reg)                  -- Fx18
  | addIVx (x : Reg)                  -- Fx1E
  | ldFVx (x : Reg)                   -- Fx29
  | ldBVx (x : Reg)                   -- Fx33
  | stRegs (x : Reg)                  -- Fx55, LD [I], Vx
  | ldRegs (x : Reg)                  -- Fx65, LD Vx, [I]
  deriving DecidableEq, Repr

end Sys2Proof
end

