-- ==== Sys2Proof/WellFormed.lean ====
section
/-!
DEFINITION. The checks on operands: which operand numbers an instruction format takes
(spec/30_encoding.md R72, R73).  The checks work on plain numbers, as an assembler or a test hands
them over; the operand types of `Instr` hold only numbers that pass them, which
Sys2Proof/Laws/PerInstr.lean proves for every constructor (log entry 15: DESIGN CHOICE, safe).
-/

namespace Sys2Proof

/-- The operand fields of R72. -/
inductive Field where
  | x | y | n | kk | nnn
  deriving DecidableEq, Repr

/-- A field's width in bits (R72). -/
def Field.width : Field → Nat
  | .x => 4
  | .y => 4
  | .n => 4
  | .kk => 8
  | .nnn => 12

/-- A number fits a field when it is below two to the field's width: every field is unsigned (R72). -/
def Field.fits (f : Field) (v : Nat) : Bool := v < 2 ^ f.width

/-- The six formats of R73. -/
inductive Format where
  | N | A | XK | XY | XYN | X
  deriving DecidableEq, Repr

/-- The fields of a format, from high bits to low bits (R73). -/
def Format.fields : Format → List Field
  | .N => []
  | .A => [.nnn]
  | .XK => [.x, .kk]
  | .XY => [.x, .y]
  | .XYN => [.x, .y, .n]
  | .X => [.x]

/-- A format accepts a list of operand numbers when there is one for each field and each fits. -/
def Format.accepts (fmt : Format) (operands : List Nat) : Bool :=
  decide (operands.length = fmt.fields.length) &&
    (fmt.fields.zip operands).all fun p => p.1.fits p.2

/-- The format of an instruction (R73, R76). -/
def Instr.format : Instr → Format
  | .cls | .ret => .N
  | .jp _ | .call _ | .ldI _ | .jpV0 _ => .A
  | .seImm _ _ | .sneImm _ _ | .ldImm _ _ | .addImm _ _ | .rnd _ _ => .XK
  | .seReg _ _ | .ldReg _ _ | .orReg _ _ | .andReg _ _ | .xorReg _ _ | .addReg _ _
  | .subReg _ _ | .shr _ _ | .subnReg _ _ | .shl _ _ | .sneReg _ _ => .XY
  | .drw _ _ _ => .XYN
  | .skp _ | .sknp _ | .ldVxDT _ | .ldVxK _ | .ldDTVx _ | .ldSTVx _ | .addIVx _ | .ldFVx _
  | .ldBVx _ | .stRegs _ | .ldRegs _ => .X

/-- The operand numbers of an instruction, in the order of its format's fields. -/
def Instr.operands : Instr → List Nat
  | .cls | .ret => []
  | .jp nnn | .call nnn | .ldI nnn | .jpV0 nnn => [nnn.toNat]
  | .seImm x kk | .sneImm x kk | .ldImm x kk | .addImm x kk | .rnd x kk => [x.val, kk.toNat]
  | .seReg x y | .ldReg x y | .orReg x y | .andReg x y | .xorReg x y | .addReg x y
  | .subReg x y | .shr x y | .subnReg x y | .shl x y | .sneReg x y => [x.val, y.val]
  | .drw x y n => [x.val, y.val, n.toNat]
  | .skp x | .sknp x | .ldVxDT x | .ldVxK x | .ldDTVx x | .ldSTVx x | .addIVx x | .ldFVx x
  | .ldBVx x | .stRegs x | .ldRegs x => [x.val]

/-- An instruction is well-formed when its format accepts its operand numbers (R72, R73). -/
abbrev Instr.WellFormed (i : Instr) : Prop := i.format.accepts i.operands = true

end Sys2Proof
end

