-- ==== Sys2Proof/Decode.lean ====
section
/-!
DEFINITION. Decoding and encoding (spec/30_encoding.md R70 to R77).  `decodeWord` is total on
16-bit words and answers none exactly for the unmatched words of R77; `decode` reads a list of
bytes and rejects by name.  `encode` is written from the same table.
-/

namespace Sys2Proof

/-- `d1 = op[15:12]` (R71). -/
def d1 (op : Word) : Nibble := op.extractLsb' 12 4

/-- `d2 = op[11:8]` (R71). -/
def d2 (op : Word) : Nibble := op.extractLsb' 8 4

/-- `d3 = op[7:4]` (R71). -/
def d3 (op : Word) : Nibble := op.extractLsb' 4 4

/-- `d4 = op[3:0]` (R71). -/
def d4 (op : Word) : Nibble := op.extractLsb' 0 4

/-- The opcode with the four given nibbles (R71). -/
def ofNibbles (n1 n2 n3 n4 : Nibble) : Word := n1 ++ n2 ++ n3 ++ n4

/-- The register a nibble selects (R72). -/
def regOf (n : Nibble) : Reg := n.toFin

/-- The nibble that selects a register (R72). -/
def nibbleOf (r : Reg) : Nibble := BitVec.ofFin r

/-- `kk = op[7:0]` (R72) from the nibbles d3 and d4. -/
def kkOf (n3 n4 : Nibble) : Byte := n3 ++ n4

/-- `nnn = op[11:0]` (R72) from the nibbles d2, d3 and d4. -/
def nnnOf (n2 n3 n4 : Nibble) : Addr := n2 ++ n3 ++ n4

/-- Family 0: 00E0 and 00EE, all 16 bits fixed (R76). -/
def decode0 (n2 n3 n4 : Nibble) : Option Instr :=
  if n2 = 0x0 ∧ n3 = 0xE ∧ n4 = 0x0 then some .cls
  else if n2 = 0x0 ∧ n3 = 0xE ∧ n4 = 0xE then some .ret
  else none

/-- Family 8: the operation is d4 (R76). -/
def decode8 (x y : Reg) (n4 : Nibble) : Option Instr :=
  if n4 = 0x0 then some (.ldReg x y)
  else if n4 = 0x1 then some (.orReg x y)
  else if n4 = 0x2 then some (.andReg x y)
  else if n4 = 0x3 then some (.xorReg x y)
  else if n4 = 0x4 then some (.addReg x y)
  else if n4 = 0x5 then some (.subReg x y)
  else if n4 = 0x6 then some (.shr x y)
  else if n4 = 0x7 then some (.subnReg x y)
  else if n4 = 0xE then some (.shl x y)
  else none

/-- Family E: the operation is the low byte (R76). -/
def decodeE (x : Reg) (kk : Byte) : Option Instr :=
  if kk = 0x9E then some (.skp x)
  else if kk = 0xA1 then some (.sknp x)
  else none

/-- Family F: the operation is the low byte (R76). -/
def decodeF (x : Reg) (kk : Byte) : Option Instr :=
  if kk = 0x07 then some (.ldVxDT x)
  else if kk = 0x0A then some (.ldVxK x)
  else if kk = 0x15 then some (.ldDTVx x)
  else if kk = 0x18 then some (.ldSTVx x)
  else if kk = 0x1E then some (.addIVx x)
  else if kk = 0x29 then some (.ldFVx x)
  else if kk = 0x33 then some (.ldBVx x)
  else if kk = 0x55 then some (.stRegs x)
  else if kk = 0x65 then some (.ldRegs x)
  else none

/-- The instruction of four nibbles: d1 selects the family (R71, R74, R76). -/
def decodeNibbles (n1 n2 n3 n4 : Nibble) : Option Instr :=
  match n1.toNat with
  | 0x0 => decode0 n2 n3 n4
  | 0x1 => some (.jp (nnnOf n2 n3 n4))
  | 0x2 => some (.call (nnnOf n2 n3 n4))
  | 0x3 => some (.seImm (regOf n2) (kkOf n3 n4))
  | 0x4 => some (.sneImm (regOf n2) (kkOf n3 n4))
  | 0x5 => if n4 = 0x0 then some (.seReg (regOf n2) (regOf n3)) else none
  | 0x6 => some (.ldImm (regOf n2) (kkOf n3 n4))
  | 0x7 => some (.addImm (regOf n2) (kkOf n3 n4))
  | 0x8 => decode8 (regOf n2) (regOf n3) n4
  | 0x9 => if n4 = 0x0 then some (.sneReg (regOf n2) (regOf n3)) else none
  | 0xA => some (.ldI (nnnOf n2 n3 n4))
  | 0xB => some (.jpV0 (nnnOf n2 n3 n4))
  | 0xC => some (.rnd (regOf n2) (kkOf n3 n4))
  | 0xD => some (.drw (regOf n2) (regOf n3) n4)
  | 0xE => decodeE (regOf n2) (kkOf n3 n4)
  | _   => decodeF (regOf n2) (kkOf n3 n4)

/-- The instruction an opcode matches, or none: the opcode matches no pattern (R74, R75). -/
def decodeWord (op : Word) : Option Instr := decodeNibbles (d1 op) (d2 op) (d3 op) (d4 op)

/-- The opcode of two bytes, big-endian: the first holds d1 and d2 (20_memory.md R58). -/
def wordOfBytes (hi lo : Byte) : Word := hi ++ lo

/-- Why a list of bytes gives no instruction. -/
inductive DecodeReject where
  /-- Fewer than two bytes: every instruction is two bytes (R70). -/
  | truncated
  /-- The opcode matches no pattern: a no-op when it is stepped (R75, R77). -/
  | unmatched (op : Word)
  deriving DecidableEq, Repr

/-- The first instruction of a list of bytes and the bytes after it, or the reason there is none. -/
def decode : List Byte → Except DecodeReject (Instr × List Byte)
  | hi :: lo :: rest =>
    match decodeWord (wordOfBytes hi lo) with
    | some i => .ok (i, rest)
    | none => .error (.unmatched (wordOfBytes hi lo))
  | _ => .error .truncated

/-- An opcode of format A (R73): d1, then nnn. -/
def encA (n1 : Nibble) (nnn : Addr) : Word :=
  ofNibbles n1 (nnn.extractLsb' 8 4) (nnn.extractLsb' 4 4) (nnn.extractLsb' 0 4)

/-- An opcode of format XK (R73): d1, x, then kk. -/
def encXK (n1 : Nibble) (x : Reg) (kk : Byte) : Word :=
  ofNibbles n1 (nibbleOf x) (kk.extractLsb' 4 4) (kk.extractLsb' 0 4)

/-- An opcode of format XY or XYN (R73): d1, x, y, then d4. -/
def encXY (n1 : Nibble) (x y : Reg) (n4 : Nibble) : Word :=
  ofNibbles n1 (nibbleOf x) (nibbleOf y) n4

/-- The opcode of an instruction (R73, R76). -/
def encode : Instr → Word
  | .cls => 0x00E0
  | .ret => 0x00EE
  | .jp nnn => encA 0x1 nnn
  | .call nnn => encA 0x2 nnn
  | .seImm x kk => encXK 0x3 x kk
  | .sneImm x kk => encXK 0x4 x kk
  | .seReg x y => encXY 0x5 x y 0x0
  | .ldImm x kk => encXK 0x6 x kk
  | .addImm x kk => encXK 0x7 x kk
  | .ldReg x y => encXY 0x8 x y 0x0
  | .orReg x y => encXY 0x8 x y 0x1
  | .andReg x y => encXY 0x8 x y 0x2
  | .xorReg x y => encXY 0x8 x y 0x3
  | .addReg x y => encXY 0x8 x y 0x4
  | .subReg x y => encXY 0x8 x y 0x5
  | .shr x y => encXY 0x8 x y 0x6
  | .subnReg x y => encXY 0x8 x y 0x7
  | .shl x y => encXY 0x8 x y 0xE
  | .sneReg x y => encXY 0x9 x y 0x0
  | .ldI nnn => encA 0xA nnn
  | .jpV0 nnn => encA 0xB nnn
  | .rnd x kk => encXK 0xC x kk
  | .drw x y n => encXY 0xD x y n
  | .skp x => encXK 0xE x 0x9E
  | .sknp x => encXK 0xE x 0xA1
  | .ldVxDT x => encXK 0xF x 0x07
  | .ldVxK x => encXK 0xF x 0x0A
  | .ldDTVx x => encXK 0xF x 0x15
  | .ldSTVx x => encXK 0xF x 0x18
  | .addIVx x => encXK 0xF x 0x1E
  | .ldFVx x => encXK 0xF x 0x29
  | .ldBVx x => encXK 0xF x 0x33
  | .stRegs x => encXK 0xF x 0x55
  | .ldRegs x => encXK 0xF x 0x65

/-- The two bytes of an instruction in memory order (R70, 20_memory.md R58). -/
def encodeBytes (i : Instr) : List Byte :=
  [(encode i).extractLsb' 8 8, (encode i).extractLsb' 0 8]

/-- One row of the decode table: the fixed bits and their values (R76). -/
structure Pattern where
  mask : Word
  value : Word
  deriving DecidableEq, Repr

/-- An opcode is the row's instruction when `op & mask == match` (R76). -/
def Pattern.matchesOp (p : Pattern) (op : Word) : Bool := op &&& p.mask == p.value

/-- The row of R76 an instruction stands in, mask and match as the table gives them. -/
def Instr.pattern : Instr → Pattern
  | .cls => ⟨0xFFFF, 0x00E0⟩
  | .ret => ⟨0xFFFF, 0x00EE⟩
  | .jp _ => ⟨0xF000, 0x1000⟩
  | .call _ => ⟨0xF000, 0x2000⟩
  | .seImm _ _ => ⟨0xF000, 0x3000⟩
  | .sneImm _ _ => ⟨0xF000, 0x4000⟩
  | .seReg _ _ => ⟨0xF00F, 0x5000⟩
  | .ldImm _ _ => ⟨0xF000, 0x6000⟩
  | .addImm _ _ => ⟨0xF000, 0x7000⟩
  | .ldReg _ _ => ⟨0xF00F, 0x8000⟩
  | .orReg _ _ => ⟨0xF00F, 0x8001⟩
  | .andReg _ _ => ⟨0xF00F, 0x8002⟩
  | .xorReg _ _ => ⟨0xF00F, 0x8003⟩
  | .addReg _ _ => ⟨0xF00F, 0x8004⟩
  | .subReg _ _ => ⟨0xF00F, 0x8005⟩
  | .shr _ _ => ⟨0xF00F, 0x8006⟩
  | .subnReg _ _ => ⟨0xF00F, 0x8007⟩
  | .shl _ _ => ⟨0xF00F, 0x800E⟩
  | .sneReg _ _ => ⟨0xF00F, 0x9000⟩
  | .ldI _ => ⟨0xF000, 0xA000⟩
  | .jpV0 _ => ⟨0xF000, 0xB000⟩
  | .rnd _ _ => ⟨0xF000, 0xC000⟩
  | .drw _ _ _ => ⟨0xF000, 0xD000⟩
  | .skp _ => ⟨0xF0FF, 0xE09E⟩
  | .sknp _ => ⟨0xF0FF, 0xE0A1⟩
  | .ldVxDT _ => ⟨0xF0FF, 0xF007⟩
  | .ldVxK _ => ⟨0xF0FF, 0xF00A⟩
  | .ldDTVx _ => ⟨0xF0FF, 0xF015⟩
  | .ldSTVx _ => ⟨0xF0FF, 0xF018⟩
  | .addIVx _ => ⟨0xF0FF, 0xF01E⟩
  | .ldFVx _ => ⟨0xF0FF, 0xF029⟩
  | .ldBVx _ => ⟨0xF0FF, 0xF033⟩
  | .stRegs _ => ⟨0xF0FF, 0xF055⟩
  | .ldRegs _ => ⟨0xF0FF, 0xF065⟩

/-- The opcode of a table row's bits: bit 0 is the least significant bit of the 16-bit opcode, and
every instruction is one such word (R9, R70), so bits above 15 belong to no instruction.  The bits
above `nbits` are 0. -/
def tableOpcode (nbits w : Nat) : Word := BitVec.ofNat _ (w % 2 ^ nbits)

/-- The two bytes of a table row's bits as the hardware stores them, high byte first
(20_memory.md R58). -/
def tableBytes (nbits w : Nat) : List Byte :=
  [(tableOpcode nbits w).extractLsb' 8 8, (tableOpcode nbits w).extractLsb' 0 8]

/-- The instruction the decoder reads from a table row's bits, laid out as the hardware stores
them. -/
def decodeTableWord (nbits w : Nat) : Option Instr :=
  match decode (tableBytes nbits w) with
  | .ok (i, _) => some i
  | .error _ => none

end Sys2Proof
end

