-- ==== Sys2Proof/Machine/State.lean ====
section
/-!
DEFINITION. The state of the core (spec/10_state.md R20 to R38), the names of its fault causes
(spec/60_exceptions.md R231) and the machine after reset (spec/70_reset_and_hazards.md R270).
-/

namespace Sys2Proof.Machine

/-- Memory as (address, byte) pairs; an unlisted address reads 0, the reset value of every byte
(R34; log entry 8: DESIGN CHOICE, safe). -/
abbrev Memory := List Host.Cell

/-- The canonical form: addresses strictly rising, every address exists (R50), and no entry holds
the byte an unlisted address reads as. -/
abbrev Memory.wf (m : Memory) : Prop :=
  m.Pairwise (fun c d => c.1 < d.1) ∧ ∀ c ∈ m, c.1 < Config.memSize ∧ c.2 ≠ 0

/-- The run state (R35). -/
inductive RunState where
  | running
  | faulted
  deriving DecidableEq, Repr

/-- The causes of a fault (60_exceptions.md R231). -/
inductive Cause where
  | fetchOutOfRange
  | memReadOutOfRange
  | memWriteOutOfRange
  | stackOverflow
  | stackUnderflow
  | keyIndexOutOfRange
  deriving DecidableEq, Repr

/-- What `raise Fault(cause, info)` carries (00_scope.md R11, 60_exceptions.md R232). -/
structure Raise where
  cause : Cause
  info : Word
  deriving DecidableEq, Repr

/-- Where the MODEL itself stops.  A fault of the spec is not one of these: it is a next state with
`run = faulted` (60_exceptions.md R232). -/
inductive Fault where
  /-- Raised by RET and CALL in a state whose `sp` is above 16, for which R29 gives no meaning: the
  stack entry they name does not exist.  Safe: `sp` never leaves 0..16 (R29), so no run reaches it
  (log entry 4: DESIGN CHOICE, safe). -/
  | stackEntryAbsent (sp : StackPtr)
  deriving DecidableEq, Repr

/-- Instructions without a meaning. -/
inductive Refusal where
  /-- Raised only by an arm of `exec` whose instruction has no meaning yet.  Safe: nothing is
  claimed of it.  No arm raises it now. -/
  | notModelled (mnemonic : String)
  deriving DecidableEq, Repr

/-- The state of the core: R20 to R35, and `draws`, the model's own field. -/
structure State where
  /-- The general registers V0 to VF; V[15] is VF, the flag register (R20 to R22). -/
  V : RegFile
  /-- The index register (R24). -/
  I : IndexWord
  /-- The program counter (R25 to R27). -/
  pc : PcWord
  /-- The call stack (R28). -/
  stack : CallStack
  /-- The stack pointer, the number of entries in use (R29). -/
  sp : StackPtr
  /-- The delay timer (R30). -/
  DT : Timer
  /-- The sound timer (R31). -/
  ST : Timer
  /-- The keypad latch (R32). -/
  key : Keypad
  /-- The framebuffer: `fb[y][x]` is `Pix(x, y)` (R33). -/
  fb : Screen
  /-- The memory (R34). -/
  mem : Memory
  /-- The run state (R35). -/
  run : RunState
  /-- The fault record: the cause code (R35). -/
  fcause : Byte
  /-- The fault record: the fetch address of the faulting step (R35). -/
  fpc : PcWord
  /-- The fault record: the opcode of the faulting step, 0 if the fetch faulted (R35). -/
  fop : Word
  /-- The fault record: the offending address, stack pointer or key index (R35). -/
  finfo : Word
  /-- The MODEL's own field: how many random draws have been taken, the argument of
  `Config.randomByte` (log entry 5: DESIGN CHOICE, safe).  States with equal counters draw the same
  byte (log entry 17: DESIGN CHOICE, unsafe for a claim that compares two runs). -/
  draws : Nat
  deriving DecidableEq, Repr

/-- The machine after construction: every element 0, released or off, and RUNNING with a zero fault
record (R20 to R35, 70_reset_and_hazards.md R270).  `draws` is the model's own: 0 by design choice
(log entry 5: DESIGN CHOICE, safe), so that two runs from reset draw the same bytes (log entry 17:
DESIGN CHOICE, unsafe for a claim that compares two runs). -/
def State.reset : State where
  V := Vector.replicate _ 0
  I := 0
  pc := 0
  stack := Vector.replicate _ 0
  sp := 0
  DT := 0
  ST := 0
  key := Vector.replicate _ false
  fb := Vector.replicate _ (Vector.replicate _ false)
  mem := []
  run := .running
  fcause := 0
  fpc := 0
  fop := 0
  finfo := 0
  draws := 0

end Sys2Proof.Machine
end

