-- ==== Sys2Proof/Machine/Ops.lean ====
section
/-!
DEFINITION. The named operations over registers and memory (spec/00_scope.md R11), the stages of a
step that are no instruction's own (spec/40_step_cycle.md R101 to R107), and taking a fault
(spec/60_exceptions.md R232), written once.
-/

namespace Sys2Proof.Machine

/-- The outcome of a step or of an instruction's meaning. -/
abbrev Out := Host.Outcome State Fault Refusal

/-! Registers -/

/-- `V[r]` (R11, R20). -/
def State.reg (s : State) (r : Reg) : Byte := s.V[r.val]

/-- `V[r] <- v` (R11, R20): every register is writable. -/
def State.setReg (s : State) (r : Reg) (v : Byte) : State := { s with V := s.V.set r.val v }

/-- Write the whole register file. -/
def State.setRegs (s : State) (V : RegFile) : State := { s with V := V }

/-- `I <- v` (R24). -/
def State.setI (s : State) (v : IndexWord) : State := { s with I := v }

/-- `pc <- v` (R25). -/
def State.setPc (s : State) (v : PcWord) : State := { s with pc := v }

/-- `sp <- v` (R29). -/
def State.setSp (s : State) (v : StackPtr) : State := { s with sp := v }

/-- Write the call stack (R28). -/
def State.setStack (s : State) (st : CallStack) : State := { s with stack := st }

/-- `DT <- v` (R30). -/
def State.setDT (s : State) (v : Timer) : State := { s with DT := v }

/-- `ST <- v` (R31). -/
def State.setST (s : State) (v : Timer) : State := { s with ST := v }

/-- Write the framebuffer (R33). -/
def State.setScreen (s : State) (f : Screen) : State := { s with fb := f }

/-- Write the memory (R34). -/
def State.setMem (s : State) (m : Memory) : State := { s with mem := m }

/-- One more random draw has been taken (R8; log entry 5: DESIGN CHOICE, safe). -/
def State.countDraw (s : State) : State := { s with draws := s.draws + 1 }

/-! Memory -/

/-- The byte at an address; an unlisted address reads 0 (R34, R60). -/
def Memory.read : Memory → Nat → Byte
  | [], _ => 0
  | (a, b) :: rest, addr => if a = addr then b else Memory.read rest addr

/-- The memory with one byte written, in canonical form. -/
def Memory.write : Memory → Nat → Byte → Memory
  | [], addr, v => if v = 0 then [] else [(addr, v)]
  | (a, b) :: rest, addr, v =>
    if addr < a then if v = 0 then (a, b) :: rest else (addr, v) :: (a, b) :: rest
    else if addr = a then if v = 0 then rest else (addr, v) :: rest
    else (a, b) :: Memory.write rest addr v

/-- `MemRead(addr, 1)`: the address is a plain natural, never reduced (20_memory.md R55). -/
def memRead (s : State) (addr : Nat) : Except Raise Byte :=
  if addr < Config.memSize then .ok (s.mem.read addr)
  else .error ⟨.memReadOutOfRange, BitVec.ofNat _ addr⟩

/-- `MemWrite(addr, 1, v)` (20_memory.md R56). -/
def memWrite (s : State) (addr : Nat) (v : Byte) : Except Raise State :=
  if addr < Config.memSize then .ok (s.setMem (s.mem.write addr v))
  else .error ⟨.memWriteOutOfRange, BitVec.ofNat _ addr⟩

/-- `n` single-byte reads at ascending addresses (20_memory.md R57). -/
def readBytes (s : State) (addr : Nat) : Nat → Except Raise (List Byte)
  | 0 => .ok []
  | n + 1 =>
    match memRead s addr with
    | .ok b =>
      match readBytes s (addr + 1) n with
      | .ok bs => .ok (b :: bs)
      | .error e => .error e
    | .error e => .error e

/-- Single-byte writes at ascending addresses (20_memory.md R57). -/
def writeBytes (s : State) (addr : Nat) : List Byte → Except Raise State
  | [] => .ok s
  | b :: bs =>
    match memWrite s addr b with
    | .ok t => writeBytes t (addr + 1) bs
    | .error e => .error e

/-! The stages of a step around the instruction -/

/-- The fetch address: `pc` after the wrap of exactly 4096 to 0 (40_step_cycle.md R101). -/
def fetchAddr (s : State) : PcWord := if s.pc = BitVec.ofNat _ Config.pcWrapPoint then 0 else s.pc

/-- The fetch: two bytes, big-endian, or the fetch fault (40_step_cycle.md R102, 20_memory.md R58). -/
def fetch (s : State) : Except Raise Word :=
  if (fetchAddr s).toNat + 1 < Config.memSize then
    .ok (wordOfBytes (s.mem.read (fetchAddr s).toNat) (s.mem.read ((fetchAddr s).toNat + 1)))
  else .error ⟨.fetchOutOfRange, fetchAddr s⟩

/-- The working copy as execute sees it: `pc` holds the fetch address plus 2
(40_step_cycle.md R101, R103). -/
def State.advance (s : State) : State := s.setPc (fetchAddr s + BitVec.ofNat _ Config.insnBytes)

/-- "Skip next instruction": `pc <- pc + 2` on the advanced pc, not wrapped
(41_control_flow.md R121). -/
def State.skip (s : State) : State := s.setPc (s.pc + BitVec.ofNat _ Config.insnBytes)

/-- Skip when the condition holds. -/
def State.skipIf (c : Bool) (s : State) : State := if c then s.skip else s

/-- One timer's count: down by one, never below 0 (40_step_cycle.md R107). -/
def countDown (t : Timer) : Timer := if t = 0 then 0 else t - 1

/-- The timer stage: both timers, independently (40_step_cycle.md R107). -/
def timerStage (s : State) : State := (s.setDT (countDown s.DT)).setST (countDown s.ST)

/-- The execute stage of an unmatched opcode: `pc` has been advanced and nothing else is written
(30_encoding.md R75). -/
def execNoOp (s : State) : State := s.advance

/-! Taking a fault -/

/-- The code of a cause in `fcause` (60_exceptions.md R231). -/
def Cause.code : Cause → Byte
  | .fetchOutOfRange => 1
  | .memReadOutOfRange => 2
  | .memWriteOutOfRange => 3
  | .stackOverflow => 4
  | .stackUnderflow => 5
  | .keyIndexOutOfRange => 6

/-- Fault entry (60_exceptions.md R232): `s` is the state BEFORE the step, and only the run state and
the fault record change; `pc` keeps its value from before the step (log entry 3: DEDUCED, safe).  There is no return from it
beside this: only reset leaves the faulted state (R235, `State.reconstruct`). -/
def State.enterFault (s : State) (op : Word) (e : Raise) : State :=
  { s with
    run := .faulted
    fcause := e.cause.code
    fpc := fetchAddr s
    fop := op
    finfo := e.info }

/-- An instruction that raises a fault takes it: the next state is the fault entry, with the
instruction's own opcode (40_step_cycle.md R106). -/
def raiseFault (i : Instr) (s : State) (e : Raise) : Out := .next (s.enterFault (encode i) e)

/-- The end of an execute stage that may raise: `s` is the state before the step, `r` the working
copy or what was raised (40_step_cycle.md R105, R106). -/
def settle (i : Instr) (s : State) (r : Except Raise State) : Out :=
  match r with
  | .ok t => .next t
  | .error e => raiseFault i s e

/-- The end of a step after the execute stage: the timer stage runs unless the instruction faulted
(40_step_cycle.md R106, R107, R108). -/
def retire (o : Out) : Out :=
  match o with
  | .next t => .next (if t.run = .faulted then t else timerStage t)
  | .fault f => .fault f
  | .refused r => .refused r

/-- A step whose opcode matches no pattern (30_encoding.md R75). -/
def stepNoOp (s : State) : Out := .next (timerStage (execNoOp s))

/-- A step whose fetch faults: `fop = 0` (40_step_cycle.md R102). -/
def stepFetchFault (s : State) (e : Raise) : Out := .next (s.enterFault 0 e)

/-- The state with an instruction's opcode stored at the fetch address.  Where the next step would
not fetch there (a faulted state, or a fetch address outside memory), the run state is set to
RUNNING and `pc` to the program base first (log entry 10: DESIGN CHOICE, safe). -/
def State.placeInstr (s : State) (op : Word) : State :=
  let a := if (fetchAddr s).toNat + 1 < Config.memSize then (fetchAddr s).toNat else Config.progBase
  { s with
    run := .running
    pc := if (fetchAddr s).toNat + 1 < Config.memSize then s.pc else BitVec.ofNat _ Config.progBase
    mem := (s.mem.write a (op.extractLsb' 8 8)).write (a + 1) (op.extractLsb' 0 8) }

end Sys2Proof.Machine
end

