-- ==== Sys2Proof/Machine/Flags.lean ====
section
/-!
DEFINITION. The flag computations of 8xy4 to 8xyE and the three readings of an instruction that
writes VF as a flag and also names register 15 (spec/42_alu.md R139, R140, R147 to R151;
spec/93_implementation_defined.md section 2).
-/

namespace Sys2Proof.Machine

/-- The reading in force: the spec's default, SEQUENTIAL (R139, D11; log entry 7: UNVERIFIED, unsafe). -/
def vfReading : VfReading := Config.defaultVfReading

/-- `VF <- v` (R22). -/
def State.setVF (s : State) (v : Byte) : State := s.setReg Config.flagReg v

/-- A flag: 1 or 0. -/
def flagOf (c : Bool) : Byte := if c then 1 else 0

/-- 8xy4: the carry out of bit 7, `sum > 255` (R147). -/
def carryFlag (a b : Byte) : Byte := flagOf (decide (a.toNat + b.toNat > 255))

/-- 8xy4: `sum & 0xFF` (R147). -/
def sumByte (a b : Byte) : Byte := BitVec.ofNat _ (a.toNat + b.toNat)

/-- 8xy5: V[x] strictly greater than V[y] (R148). -/
def greaterFlag (a b : Byte) : Byte := flagOf (decide (a.toNat > b.toNat))

/-- 8xy5: `V[x] -w8 V[y]` (R148). -/
def diffByte (a b : Byte) : Byte := a - b

/-- 8xy7: V[y] strictly greater than V[x] (R150). -/
def lessFlag (a b : Byte) : Byte := flagOf (decide (b.toNat > a.toNat))

/-- 8xy7: `V[y] -w8 V[x]` (R150). -/
def revDiffByte (a b : Byte) : Byte := b - a

/-- 8xy6: bit 0 of V[x]; V[y] is ignored (R149). -/
def lowBitFlag (a _b : Byte) : Byte := a &&& 1

/-- 8xy6: `V[x] >> 1` (R149). -/
def shrByte (a _b : Byte) : Byte := a >>> 1

/-- 8xyE: bit 7 of V[x]; V[y] is ignored (R151). -/
def highBitFlag (a _b : Byte) : Byte := (a &&& 0x80) >>> 7

/-- 8xyE: `(V[x] << 1) & 0xFF` (R151). -/
def shlByte (a _b : Byte) : Byte := a <<< 1

/-- Both operands read first, then VF written, then V[x] (93 section 2, OPERANDS_FIRST). -/
def flagThenResult (flag result : Byte → Byte → Byte) (x y : Reg) (s : State) : State :=
  (s.setVF (flag (s.reg x) (s.reg y))).setReg x (result (s.reg x) (s.reg y))

/-- Both operands read first, then V[x] written, then VF (93 section 2, FLAG_LAST). -/
def resultThenFlag (flag result : Byte → Byte → Byte) (x y : Reg) (s : State) : State :=
  (s.setReg x (result (s.reg x) (s.reg y))).setVF (flag (s.reg x) (s.reg y))

/-- VF written first, then V[x] from the registers as that write left them (R139, SEQUENTIAL). -/
def flagThenReread (flag result : Byte → Byte → Byte) (x y : Reg) (s : State) : State :=
  let t := s.setVF (flag (s.reg x) (s.reg y))
  t.setReg x (result (t.reg x) (t.reg y))

/-- An instruction of two statements, `VF <- flag` and `V[x] <- result`, each naming V[x] and V[y]:
8xy5, 8xy6, 8xy7, 8xyE (R139). -/
def writeFlagged (r : VfReading) (flag result : Byte → Byte → Byte) (x y : Reg) (s : State) : State :=
  match r with
  | .sequential => flagThenReread flag result x y s
  | .operandsFirst => flagThenResult flag result x y s
  | .flagLast => resultThenFlag flag result x y s

/-- 8xy4: its first statement takes `sum` before any write, so SEQUENTIAL and OPERANDS_FIRST agree
(R147). -/
def writeCarry (r : VfReading) (flag result : Byte → Byte → Byte) (x y : Reg) (s : State) : State :=
  match r with
  | .sequential => flagThenResult flag result x y s
  | .operandsFirst => flagThenResult flag result x y s
  | .flagLast => resultThenFlag flag result x y s

end Sys2Proof.Machine
end

