-- ==== Sys2Proof/Machine/Alu.lean ====
section
/-!
DEFINITION. Register and ALU instructions: 6xkk, 7xkk, 8xy0 to 8xy7, 8xyE, Cxkk
(spec/42_alu.md R139 to R152).  None can fault.
-/

namespace Sys2Proof.Machine

/-- 6xkk LD Vx, kk (R141). -/
def execLdImm (x : Reg) (kk : Byte) (s : State) : Out := .next (s.advance.setReg x kk)

/-- 7xkk ADD Vx, kk (R142): wraps, VF untouched. -/
def execAddImm (x : Reg) (kk : Byte) (s : State) : Out := .next (s.advance.setReg x (s.reg x + kk))

/-- 8xy0 LD Vx, Vy (R143). -/
def execLdReg (x y : Reg) (s : State) : Out := .next (s.advance.setReg x (s.reg y))

/-- 8xy1 OR (R144): VF untouched. -/
def execOrReg (x y : Reg) (s : State) : Out := .next (s.advance.setReg x (s.reg x ||| s.reg y))

/-- 8xy2 AND (R145): VF untouched. -/
def execAndReg (x y : Reg) (s : State) : Out := .next (s.advance.setReg x (s.reg x &&& s.reg y))

/-- 8xy3 XOR (R146): VF untouched. -/
def execXorReg (x y : Reg) (s : State) : Out := .next (s.advance.setReg x (s.reg x ^^^ s.reg y))

/-- 8xy4 ADD Vx, Vy (R147): VF the carry. -/
def execAddReg (x y : Reg) (s : State) : Out :=
  .next (writeCarry vfReading carryFlag sumByte x y s.advance)

/-- 8xy5 SUB Vx, Vy (R148): VF is V[x] > V[y], strict. -/
def execSubReg (x y : Reg) (s : State) : Out :=
  .next (writeFlagged vfReading greaterFlag diffByte x y s.advance)

/-- 8xy6 SHR Vx (R149): shifts Vx, never Vy. -/
def execShr (x y : Reg) (s : State) : Out :=
  .next (writeFlagged vfReading lowBitFlag shrByte x y s.advance)

/-- 8xy7 SUBN Vx, Vy (R150): VF is V[y] > V[x], strict. -/
def execSubnReg (x y : Reg) (s : State) : Out :=
  .next (writeFlagged vfReading lessFlag revDiffByte x y s.advance)

/-- 8xyE SHL Vx (R151): shifts Vx, never Vy. -/
def execShl (x y : Reg) (s : State) : Out :=
  .next (writeFlagged vfReading highBitFlag shlByte x y s.advance)

/-- Cxkk RND Vx, kk (R152): the draw is a free value (log entry 5: DESIGN CHOICE, safe), the same one
in two states with equal `draws` (log entry 17: DESIGN CHOICE, unsafe for a claim that compares two
runs). -/
def execRnd (x : Reg) (kk : Byte) (s : State) : Out :=
  .next (s.advance.countDraw.setReg x (Config.randomByte s.draws &&& kk))

end Sys2Proof.Machine
end

