-- ==== Sys2Proof/Machine/Operands.lean ====
section
/-!
DEFINITION. The operand forms: jump targets, the index register as an address, the font address, the
BCD digits, the register block of Fx55 and Fx65, keypad indices (spec/41_control_flow.md R120,
spec/43_index_memory.md, spec/45_keypad_timers.md).
-/

namespace Sys2Proof.Machine

/-- A jump or call target: `zext_16(nnn)`, not checked, not reduced (R120). -/
def jumpTarget (nnn : Addr) : PcWord := nnn.zext

/-- The target of Bnnn: `zext_16(nnn) + V[0]`, held exactly in 16 bits (R129). -/
def computedTarget (nnn : Addr) (v0 : Byte) : PcWord := nnn.zext + v0.zext

/-- The address `I` names, as a plain natural (20_memory.md R55). -/
def indexAddr (s : State) : Nat := s.I.toNat

/-- `I +w16 V[x]` (R171). -/
def indexPlus (i : IndexWord) (v : Byte) : IndexWord := i + v.zext

/-- The glyph address of Fx29: `0x050 + 5 * (V[x] & 0x0F)` (R172, D7). -/
def fontAddr (v : Byte) : IndexWord :=
  BitVec.ofNat _ (Config.fontBase + Config.fontGlyphBytes * (v.toNat % 16))

/-- The three digits of Fx33: hundreds, tens, ones (R173). -/
def bcdDigits (v : Byte) : List Byte :=
  [BitVec.ofNat _ (v.toNat / 100), BitVec.ofNat _ (v.toNat / 10 % 10), BitVec.ofNat _ (v.toNat % 10)]

/-- V0 to Vx inclusive: x + 1 registers (R174). -/
def regBlock (V : RegFile) (x : Reg) : List Byte := V.toList.take (x.val + 1)

/-- The register file with the given bytes loaded from V0 upward; the registers past them keep their
values (R175). -/
def loadBlock (V : RegFile) (bs : List Byte) : RegFile :=
  Vector.ofFn fun i : Reg => bs.getD i.val V[i.val]

/-- `Key(k)` for a key index held in a register, or the fault of an index above 15 (R210, R211). -/
def keyAt (s : State) (k : Byte) : Except Raise Bool :=
  if h : k.toNat < (delta% Config.numKeys) then .ok s.key[k.toNat] else .error ⟨.keyIndexOutOfRange, k.zext⟩

/-- The lowest pressed key, if any is pressed (R213). -/
def lowestKey (key : Keypad) : Option Key := (List.finRange (delta% Config.numKeys)).find? fun k => key[k.val]

end Sys2Proof.Machine
end

