-- ==== Sys2Proof/Machine/Control.lean ====
section
/-!
DEFINITION. Control flow: 00EE, 1nnn, 2nnn, 3xkk, 4xkk, 5xy0, 9xy0, Bnnn
(spec/41_control_flow.md R120 to R129).  Each meaning takes the state before the step; `s.advance`
is the working copy execute sees, with `pc` the fetch address plus 2 (log entry 1: DESIGN CHOICE, safe).
-/

namespace Sys2Proof.Machine

/-- 00EE RET (R122): `sp <- sp - 1; pc <- stack[sp]`, the entry kept; a fault when the stack is
empty.  A state with `sp` above 16 has no such entry (log entry 4: DESIGN CHOICE, safe). -/
def execRet (s : State) : Out :=
  if s.sp = 0 then raiseFault .ret s ⟨.stackUnderflow, 0⟩
  else
    match s.stack[s.sp.toNat - 1]? with
    | some a => .next ((s.advance.setSp (s.sp - 1)).setPc a)
    | none => .fault (.stackEntryAbsent s.sp)

/-- 1nnn JP (R123). -/
def execJp (nnn : Addr) (s : State) : Out := .next (s.advance.setPc (jumpTarget nnn))

/-- 2nnn CALL (R124): `stack[sp] <- pc` (the advanced pc), `sp <- sp + 1`, `pc <- nnn`; a fault when
the stack is full.  A state with `sp` above 16 has no such entry (log entry 4: DESIGN CHOICE, safe). -/
def execCall (nnn : Addr) (s : State) : Out :=
  if s.sp.toNat = Config.stackDepth then
    raiseFault (.call nnn) s ⟨.stackOverflow, BitVec.ofNat _ Config.stackDepth⟩
  else if h : s.sp.toNat < (delta% Config.stackDepth) then
    .next (((s.advance.setStack (s.stack.set s.sp.toNat s.advance.pc h)).setSp (s.sp + 1)).setPc
      (jumpTarget nnn))
  else .fault (.stackEntryAbsent s.sp)

/-- 3xkk SE Vx, kk (R125). -/
def execSeImm (x : Reg) (kk : Byte) (s : State) : Out := .next (s.advance.skipIf (s.reg x == kk))

/-- 4xkk SNE Vx, kk (R126). -/
def execSneImm (x : Reg) (kk : Byte) (s : State) : Out := .next (s.advance.skipIf (s.reg x != kk))

/-- 5xy0 SE Vx, Vy (R127). -/
def execSeReg (x y : Reg) (s : State) : Out := .next (s.advance.skipIf (s.reg x == s.reg y))

/-- 9xy0 SNE Vx, Vy (R128). -/
def execSneReg (x y : Reg) (s : State) : Out := .next (s.advance.skipIf (s.reg x != s.reg y))

/-- Bnnn JP V0, nnn (R129): always V0. -/
def execJpV0 (nnn : Addr) (s : State) : Out := .next (s.advance.setPc (computedTarget nnn (s.reg 0)))

end Sys2Proof.Machine
end

