-- ==== Sys2Proof/Machine/Display.lean ====
section
/-!
DEFINITION. Display instructions: 00E0 and Dxyn (spec/44_display.md R190 to R197), and the pixel
operations they use.
-/

namespace Sys2Proof.Machine

/-- Every pixel off (R191). -/
def blankScreen : Screen := Vector.replicate _ (Vector.replicate _ false)

/-- `Pix(x, y)`; a place outside the framebuffer is no pixel and reads off (R33). -/
def pix (f : Screen) (x y : Nat) : Bool :=
  if h : x < (delta% Config.fbWidth) ∧ y < (delta% Config.fbHeight) then f[y][x] else false

/-- `Pix(x, y) <- Pix(x, y) ^ 1`, guarded: a place outside the framebuffer is skipped (R194, D8). -/
def flipPix (f : Screen) (x y : Nat) : Screen :=
  if h : x < (delta% Config.fbWidth) ∧ y < (delta% Config.fbHeight) then
    f.set y (f[y].set x (!f[y][x]))
  else f

/-- The framebuffer and `hit` while a sprite is drawn (R192). -/
structure Drawing where
  screen : Screen
  hit : Bool
  deriving DecidableEq, Repr

/-- One drawn pixel: `hit` is set when it was on, then it is toggled (R192, R196). -/
def plot (d : Drawing) (x y : Nat) : Drawing :=
  ⟨flipPix d.screen x y, d.hit || pix d.screen x y⟩

/-- Column c of a sprite byte is bit 7 - c: the most significant bit is leftmost (R195, D9). -/
def spriteBit (b : Byte) (c : Nat) : Bool := b.getLsbD (7 - c)

/-- Columns `c` to 7 of one sprite row, at (x, y) onward (R192). -/
def drawRow (d : Drawing) (b : Byte) (x y : Nat) : List Nat → Drawing
  | [] => d
  | c :: cs => drawRow (if spriteBit b c then plot d (x + c) y else d) b x y cs

/-- The rows of a sprite from row y downward, every row with its columns 0 to 7 (R192). -/
def drawRows (d : Drawing) (x y : Nat) : List Byte → Drawing
  | [] => d
  | b :: bs => drawRows (drawRow d b x y [0, 1, 2, 3, 4, 5, 6, 7]) x (y + 1) bs

/-- The column of the origin: V[x] modulo 64, computed once (R193). -/
def originX (v : Byte) : Nat := v.toNat % Config.fbWidth

/-- The row of the origin: V[y] modulo 32, computed once (R193, 90_conflicts.md C1). -/
def originY (v : Byte) : Nat := v.toNat % Config.fbHeight

/-- 00E0 CLS (R191). -/
def execCls (s : State) : Out := .next (s.advance.setScreen blankScreen)

/-- The working copy with a sprite drawn at the origin V[x], V[y] took before VF is written. -/
def drawSprite (s : State) (x y : Reg) (bs : List Byte) : State :=
  let d := drawRows ⟨s.fb, false⟩ (originX (s.reg x)) (originY (s.reg y)) bs
  (s.setScreen d.screen).setVF (flagOf d.hit)

/-- Dxyn DRW Vx, Vy, n (R192): every row is read, on the screen or not; an out-of-range row faults
and nothing is drawn. -/
def execDrw (x y : Reg) (n : Nibble) (s : State) : Out :=
  settle (.drw x y n) s
    (match readBytes s.advance (indexAddr s) n.toNat with
    | .ok bs => .ok (drawSprite s.advance x y bs)
    | .error e => .error e)

end Sys2Proof.Machine
end

