-- ==== Sys2Proof/Machine/Index.lean ====
section
/-!
DEFINITION. Index register and memory instructions: Annn, Fx1E, Fx29, Fx33, Fx55, Fx65
(spec/43_index_memory.md R170 to R175).  None writes VF as a flag; Fx33, Fx55 and Fx65 leave I.
-/

namespace Sys2Proof.Machine

/-- Annn LD I, nnn (R170). -/
def execLdI (nnn : Addr) (s : State) : Out := .next (s.advance.setI nnn.zext)

/-- Fx1E ADD I, Vx (R171): wraps modulo 65536, VF untouched. -/
def execAddIVx (x : Reg) (s : State) : Out := .next (s.advance.setI (indexPlus s.I (s.reg x)))

/-- Fx29 LD F, Vx (R172). -/
def execLdFVx (x : Reg) (s : State) : Out := .next (s.advance.setI (fontAddr (s.reg x)))

/-- Fx33 LD B, Vx (R173): three digits at I, I + 1, I + 2, or the fault and no byte. -/
def execLdBVx (x : Reg) (s : State) : Out :=
  settle (.ldBVx x) s (writeBytes s.advance (indexAddr s) (bcdDigits (s.reg x)))

/-- Fx55 LD [I], Vx (R174): V0 to Vx at I upward, or the fault and no byte. -/
def execStRegs (x : Reg) (s : State) : Out :=
  settle (.stRegs x) s (writeBytes s.advance (indexAddr s) (regBlock s.V x))

/-- Fx65 LD Vx, [I] (R175): V0 to Vx from I upward, or the fault and no register. -/
def execLdRegs (x : Reg) (s : State) : Out :=
  settle (.ldRegs x) s
    (match readBytes s.advance (indexAddr s) (x.val + 1) with
    | .ok bs => .ok (s.advance.setRegs (loadBlock s.V bs))
    | .error e => .error e)

end Sys2Proof.Machine
end

