-- ==== Sys2Proof/Machine/Keypad.lean ====
section
/-!
DEFINITION. Keypad and timer instructions: Ex9E, ExA1, Fx07, Fx0A, Fx15, Fx18
(spec/45_keypad_timers.md R210 to R215).  None writes VF as a flag.
-/

namespace Sys2Proof.Machine

/-- Ex9E SKP Vx (R210). -/
def execSkp (x : Reg) (s : State) : Out :=
  settle (.skp x) s
    (match keyAt s (s.reg x) with
    | .ok down => .ok (s.advance.skipIf down)
    | .error e => .error e)

/-- ExA1 SKNP Vx (R211). -/
def execSknp (x : Reg) (s : State) : Out :=
  settle (.sknp x) s
    (match keyAt s (s.reg x) with
    | .ok down => .ok (s.advance.skipIf (!down))
    | .error e => .error e)

/-- Fx07 LD Vx, DT (R212): DT as it was before this step's timer stage. -/
def execLdVxDT (x : Reg) (s : State) : Out := .next (s.advance.setReg x s.DT)

/-- Fx0A LD Vx, K (R213): the lowest pressed key, or back to this instruction's own address. -/
def execLdVxK (x : Reg) (s : State) : Out :=
  match lowestKey s.key with
  | some k => .next (s.advance.setReg x (BitVec.ofNat _ k.val))
  | none => .next (s.advance.setPc (s.advance.pc - BitVec.ofNat _ Config.insnBytes))

/-- Fx15 LD DT, Vx (R214); the timer stage of the same step then counts it down. -/
def execLdDTVx (x : Reg) (s : State) : Out := .next (s.advance.setDT (s.reg x))

/-- Fx18 LD ST, Vx (R215); the timer stage of the same step then counts it down. -/
def execLdSTVx (x : Reg) (s : State) : Out := .next (s.advance.setST (s.reg x))

end Sys2Proof.Machine
end

