-- ==== Sys2Proof/Machine/Step.lean ====
section
/-!
DEFINITION. The step (spec/40_step_cycle.md R100): one call of the host port `step()`.
-/

namespace Sys2Proof.Machine

/-- One step (R100): nothing in the faulted state (R109); else fetch (R101, R102), then the no-op of
an unmatched opcode (R104, 30_encoding.md R75) or the decoded instruction (R103, R105, R106), and the
timer stage (R107). -/
def step (s : State) : Host.Outcome State Fault Refusal :=
  match s.run with
  | .faulted => .next s
  | .running =>
    match fetch s with
    | .error e => stepFetchFault s e
    | .ok op =>
      match decodeWord op with
      | none => stepNoOp s
      | some i => retire (exec i s)

/-- `s` with a table row's instruction stored where the next step fetches, big-endian
(20_memory.md R58). -/
def State.withFetchWord (s : State) (nbits w : Nat) : State := s.placeInstr (tableOpcode nbits w)

end Sys2Proof.Machine
end

