-- ==== Sys2Proof/Machine/Ports.lean ====
section
/-!
DEFINITION. The host ports (spec/60_exceptions.md R245, R250 to R257; spec/70_reset_and_hazards.md
R270 to R275): load, step, set_key, framebuffer, tone, status and reset, each one atomic transaction
(log entry 11: DESIGN CHOICE, unsafe for claims on steps alone).
-/

namespace Sys2Proof.Machine

/-- The font table in force: the spec's default (R276; log entry 6: PRESUMED, unsafe). -/
def fontTable : FontTable := Config.defaultFont

/-- Bytes stored at ascending addresses, as the loader copies them (R273). -/
def Memory.fill (m : Memory) (addr : Nat) : List Byte → Memory
  | [] => m
  | b :: bs => Memory.fill (m.write addr b) (addr + 1) bs

/-- The state with the font and a program in memory and `pc` at the program base; nothing else
changes (R273). -/
def State.loaded (s : State) (font : FontTable) (bytes : List Byte) : State :=
  (s.setMem ((s.mem.fill Config.fontBase font.toList).fill Config.progBase bytes)).setPc
    (BitVec.ofNat _ Config.progBase)

/-- What a port call returns. -/
inductive Reply where
  | none                                        -- step, set_key, reset
  | loadOk                                      -- R273
  | loadError                                   -- R274
  | pixels (view : FramebufferView)             -- R253
  | tone (on : Bool)                            -- R245
  | status (run : RunState) (fcause : Byte) (fpc : PcWord) (fop finfo : Word)   -- R256
  deriving DecidableEq, Repr

/-- `load(bytes)` with the font table as a parameter (R273, R274, R8): acts in any state (R275). -/
def loadWith (font : FontTable) (bytes : List Byte) (s : State) : Reply × State :=
  if bytes.length ≤ Config.progMax then (.loadOk, s.loaded font bytes) else (.loadError, s)

/-- `load(bytes)` with the font table in force (R254). -/
def load (bytes : List Byte) (s : State) : Reply × State := loadWith fontTable bytes s

/-- `set_key(id, pressed)`: one slot of the latch, nothing else (R252). -/
def setKey (id : Key) (pressed : Bool) (s : State) : State :=
  { s with key := s.key.set id.val pressed }

/-- The bit a pixel shows in the host view (R253, 90_conflicts.md C4). -/
def pixelBit (b : Bool) : BitVec 1 := BitVec.ofBool b

/-- `framebuffer()`: cell i is `Pix(i mod 64, i div 64)` (R253). -/
def framebufferView (s : State) : FramebufferView :=
  Vector.ofFn fun i : Fin (delta% Config.fbCells) =>
    pixelBit (pix s.fb (i.val % (delta% Config.fbWidth)) (i.val / (delta% Config.fbWidth)))

/-- `tone = (ST != 0)`, a level (R245). -/
def toneOn (s : State) : Bool := s.ST != 0

/-- Reset is construction anew (R270).  The model's own `draws` goes on, so that the draws after a
reset are as free as those before it (log entry 5: DESIGN CHOICE, safe). -/
def State.reconstruct (s : State) : State := { State.reset with draws := s.draws }

/-- The calls a host can make (R250, R256, R257, R270). -/
inductive HostCall where
  | load (bytes : List Byte)
  | step
  | setKey (id : Key) (pressed : Bool)
  | framebuffer
  | tone
  | status
  | reset
  deriving DecidableEq, Repr

/-- A port's answer as a transaction: the reply and the next state, or the model's own stop.  The font
table is an input of the run (00_scope.md R8). -/
def transact (font : FontTable) (c : HostCall) (s : State) : Host.Outcome (Reply × State) Fault Refusal :=
  match c with
  | .load bytes => .next (loadWith font bytes s)
  | .step =>
    match step s with
    | .next t => .next (.none, t)
    | .fault f => .fault f
    | .refused r => .refused r
  | .setKey id pressed => .next (.none, setKey id pressed s)
  | .framebuffer => .next (.pixels (framebufferView s), s)
  | .tone => .next (.tone (toneOn s), s)
  | .status => .next (.status s.run s.fcause s.fpc s.fop s.finfo, s)
  | .reset => .next (.none, s.reconstruct)

/-- A run: a finite sequence of host transactions, its observation the state after the last
(R261), for any font table (00_scope.md R8). -/
def runCalls (font : FontTable) : List HostCall → State → Host.Outcome State Fault Refusal
  | [], s => .next s
  | c :: cs, s =>
    match transact font c s with
    | .next (_, t) => runCalls font cs t
    | .fault f => .fault f
    | .refused r => .refused r

end Sys2Proof.Machine
end

