-- ==== Sys2Proof/Safety.lean ====
section
/-!
DEFINITION. The words claims are written in: the parts of the state, what may change, the register
write, the invariant of the core, and what each instruction may write (spec/10_state.md R20 to R35).
-/

namespace Sys2Proof.Machine

/-- The parts of the state a claim names (10_state.md R20 to R35); `fault` is the run state with the
fault record (R35), `draws` the model's own counter. -/
inductive Part where
  | V | I | pc | stack | sp | DT | ST | key | fb | mem | fault | draws
  deriving DecidableEq, Repr

/-- A part holds the same in two states: memory byte by byte, the framebuffer pixel by pixel. -/
def Part.same : Part → State → State → Prop
  | .V, s, t => ∀ r : Reg, t.reg r = s.reg r
  | .I, s, t => t.I = s.I
  | .pc, s, t => t.pc = s.pc
  | .stack, s, t => t.stack = s.stack
  | .sp, s, t => t.sp = s.sp
  | .DT, s, t => t.DT = s.DT
  | .ST, s, t => t.ST = s.ST
  | .key, s, t => t.key = s.key
  | .fb, s, t => ∀ x y : Nat, pix t.fb x y = pix s.fb x y
  | .mem, s, t => ∀ a : Nat, t.mem.read a = s.mem.read a
  | .fault, s, t =>
    t.run = s.run ∧ t.fcause = s.fcause ∧ t.fpc = s.fpc ∧ t.fop = s.fop ∧ t.finfo = s.finfo
  | .draws, s, t => t.draws = s.draws

/-- Every part of the state that is not listed holds the same. -/
def OnlyChanges (ps : List Part) (s t : State) : Prop := ∀ p : Part, p ∉ ps → p.same s t

/-- `pc` after an instruction that neither jumps nor skips: the fetch address plus 2
(40_step_cycle.md R103). -/
def nextPc (s : State) : PcWord := fetchAddr s + 2

/-- `t` is `s` with `V[x]` holding `v`, every other register and every other part of the state the
same, and `pc` at the next instruction. -/
def RegWrite (s t : State) (x : Reg) (v : Byte) : Prop :=
  OnlyChanges [.V, .pc] s t ∧ t.pc = nextPc s ∧ ∀ r : Reg, t.reg r = if r = x then v else s.reg r

/-- `t` is the fault entry of 60_exceptions.md R232 from the state `s` before the step: the run state
and the fault record change and nothing else does. -/
def faultEntry (s : State) (fcause : Byte) (fop finfo : Word) : State :=
  { s with run := .faulted, fcause := fcause, fpc := fetchAddr s, fop := fop, finfo := finfo }

/-- An instruction's opcode has the fixed bits of its row: `op & mask == match`
(30_encoding.md R76). -/
def EncodedAs (i : Instr) (mask value : Word) : Prop := encode i &&& mask = value

/-- The pixel (px, py) is under a set bit of the n-row sprite at `I` drawn at (x0, y0): row py - y0,
column px - x0, the most significant bit leftmost (44_display.md R192, R195). -/
def spriteCovers (s : State) (n x0 y0 px py : Nat) : Bool :=
  decide (x0 ≤ px ∧ px < x0 + 8 ∧ y0 ≤ py ∧ py < y0 + n) &&
    (s.mem.read (indexAddr s + (py - y0))).getLsbD (7 - (px - x0))

/-- What every reachable state of the core satisfies. -/
structure State.Inv (s : State) : Prop where
  /-- `sp` stays in 0..16 (10_state.md R29). -/
  spBound : s.sp.toNat ≤ 16
  /-- `pc` never exceeds 0x10FE (10_state.md R27). -/
  pcBound : s.pc.toNat ≤ 0x10FE
  /-- A stack entry is 0 or an advanced pc, at most 4096 (10_state.md R27, R28). -/
  stackBound : ∀ j : StackSlot, s.stack[j.val].toNat ≤ 4096
  /-- Memory is in its canonical form, inside 0x000 to 0xFFF (20_memory.md R50). -/
  memWf : s.mem.wf
  /-- While RUNNING the fault record is zero (10_state.md R35). -/
  recordRunning :
    s.run = .running → s.fcause = 0 ∧ s.fpc = 0 ∧ s.fop = 0 ∧ s.finfo = 0
  /-- While FAULTED the cause is one of the six of 60_exceptions.md R231. -/
  recordFaulted : s.run = .faulted → 1 ≤ s.fcause.toNat ∧ s.fcause.toNat ≤ 6

/-- The state's step answers a next state: "every `step()` returns" (60_exceptions.md R257). -/
def StepReturns (s : State) : Prop := ∃ t : State, step s = .next t

/-- The parts an instruction may write beside `pc`, read off the writers' lists of 10_state.md R21,
R24, R28 to R33 and 20_memory.md R51. -/
def mayWrite : Instr → List Part
  | .cls => [.fb]
  | .ret => [.sp]
  | .jp _ | .jpV0 _ | .seImm _ _ | .sneImm _ _ | .seReg _ _ | .sneReg _ _ | .skp _ | .sknp _ => []
  | .call _ => [.stack, .sp]
  | .ldImm _ _ | .addImm _ _ | .ldReg _ _ | .orReg _ _ | .andReg _ _ | .xorReg _ _ | .addReg _ _
  | .subReg _ _ | .shr _ _ | .subnReg _ _ | .shl _ _ | .ldVxDT _ | .ldVxK _ | .ldRegs _ => [.V]
  | .rnd _ _ => [.V, .draws]
  | .ldI _ | .addIVx _ | .ldFVx _ => [.I]
  | .drw _ _ _ => [.V, .fb]
  | .ldDTVx _ => [.DT]
  | .ldSTVx _ => [.ST]
  | .ldBVx _ | .stRegs _ => [.mem]

/-- A register an instruction may write: its destination, and VF where it is written as a flag
(10_state.md R21, R22). -/
def mayWriteReg : Instr → Reg → Bool
  | .ldImm x _, r | .addImm x _, r | .ldReg x _, r | .orReg x _, r | .andReg x _, r
  | .xorReg x _, r | .rnd x _, r | .ldVxDT x, r | .ldVxK x, r => r == x
  | .addReg x _, r | .subReg x _, r | .shr x _, r | .subnReg x _, r | .shl x _, r =>
    r == x || r == 15
  | .drw _ _ _, r => r == 15
  | .ldRegs x, r => decide (r ≤ x)
  | .cls, _ | .ret, _ | .jp _, _ | .call _, _ | .seImm _ _, _ | .sneImm _ _, _ | .seReg _ _, _
  | .sneReg _ _, _ | .ldI _, _ | .jpV0 _, _ | .skp _, _ | .sknp _, _ | .ldDTVx _, _ | .ldSTVx _, _
  | .addIVx _, _ | .ldFVx _, _ | .ldBVx _, _ | .stRegs _, _ => false

/-- An instruction that reads the keypad (10_state.md R32). -/
def readsKeypad : Instr → Bool
  | .skp _ | .sknp _ | .ldVxK _ => true
  | .cls | .ret | .jp _ | .call _ | .seImm _ _ | .sneImm _ _ | .seReg _ _ | .ldImm _ _
  | .addImm _ _ | .ldReg _ _ | .orReg _ _ | .andReg _ _ | .xorReg _ _ | .addReg _ _ | .subReg _ _
  | .shr _ _ | .subnReg _ _ | .shl _ _ | .sneReg _ _ | .ldI _ | .jpV0 _ | .rnd _ _ | .drw _ _ _
  | .ldVxDT _ | .ldDTVx _ | .ldSTVx _ | .addIVx _ | .ldFVx _ | .ldBVx _ | .stRegs _
  | .ldRegs _ => false

/-- The outcome with its next state changed by a function. -/
def mapNext (f : State → State) (o : Host.Outcome State Fault Refusal) :
    Host.Outcome State Fault Refusal :=
  match o with
  | .next t => .next (f t)
  | .fault r => .fault r
  | .refused r => .refused r

end Sys2Proof.Machine
end

