-- ==== Sys2Proof/Certificates/Slice0/Obligations.lean ====
section
/-!
DEFINITION. The statements for the provers, one `def Obligations.<Name> : Prop` each.  A docstring
names the rule of spec/ a statement formalises, and where it rests on a decision of the spec
(spec/92_eei_decisions.md) or on the model's own log entry it says so.
-/

open Sys2Proof Sys2Proof.Machine

/-! Encoding and decoding -/

/-- Decoding the opcode of an instruction gives the instruction, operand for operand, as a word and
as two bytes with any bytes after them (30_encoding.md R70 to R76). -/
def Obligations.DecodeOfEncodeIsTheInstruction : Prop :=
  ∀ (i : Instr) (rest : List Byte),
    i.WellFormed ∧ decodeWord (encode i) = some i ∧ decode (encodeBytes i ++ rest) = .ok (i, rest)

/-- An opcode that decodes is the opcode of what it decodes to: decode drops no bit (R72, R76). -/
def Obligations.EncodeOfDecodeIsTheOpcode : Prop :=
  ∀ (op : Word) (i : Instr), decodeWord op = some i → encode i = op

/-- R74, R76: an opcode matches a row's fixed digits exactly when it decodes to an instruction of that
row; so at most one row matches any opcode. -/
def Obligations.DecodeFollowsTheMaskTable : Prop :=
  ∀ (op : Word) (j : Instr),
    j.pattern.matchesOp op = true ↔ ∃ i : Instr, decodeWord op = some i ∧ i.pattern = j.pattern

/-- The unmatched words are those of the table of 30_encoding.md R77, family by family (R77 is an
inference the spec marks as its own, from R75 and R76). -/
def Obligations.UnmatchedWordsAreTheListedOnes : Prop :=
  ∀ op : Word, decodeWord op = none ↔
    (d1 op = 0x0 ∧ op ≠ 0x00E0 ∧ op ≠ 0x00EE) ∨
    (d1 op = 0x5 ∧ d4 op ≠ 0x0) ∨
    (d1 op = 0x8 ∧ d4 op ∈ [0x8, 0x9, 0xA, 0xB, 0xC, 0xD, 0xF]) ∨
    (d1 op = 0x9 ∧ d4 op ≠ 0x0) ∨
    (d1 op = 0xE ∧ kkOf (d3 op) (d4 op) ∉ [0x9E, 0xA1]) ∨
    (d1 op = 0xF ∧
      kkOf (d3 op) (d4 op) ∉ [0x07, 0x0A, 0x15, 0x18, 0x1E, 0x29, 0x33, 0x55, 0x65])

/-- Words written out from the table of R76, at least one for each family (each first nibble, R71),
decode to what they stand for. -/
def Obligations.SampleWordsDecode : Prop :=
  decodeWord 0x00E0 = some .cls ∧ decodeWord 0x00EE = some .ret ∧
  decodeWord 0x1208 = some (.jp 0x208) ∧ decodeWord 0x2300 = some (.call 0x300) ∧
  decodeWord 0x3342 = some (.seImm 3 0x42) ∧ decodeWord 0x4342 = some (.sneImm 3 0x42) ∧
  decodeWord 0x5120 = some (.seReg 1 2) ∧ decodeWord 0x6A2B = some (.ldImm 0xA 0x2B) ∧
  decodeWord 0x710A = some (.addImm 1 0x0A) ∧ decodeWord 0x8124 = some (.addReg 1 2) ∧
  decodeWord 0x812E = some (.shl 1 2) ∧ decodeWord 0x9120 = some (.sneReg 1 2) ∧
  decodeWord 0xA2F0 = some (.ldI 0x2F0) ∧ decodeWord 0xB300 = some (.jpV0 0x300) ∧
  decodeWord 0xC30F = some (.rnd 3 0x0F) ∧ decodeWord 0xD123 = some (.drw 1 2 3) ∧
  decodeWord 0xE19E = some (.skp 1) ∧ decodeWord 0xF20A = some (.ldVxK 2) ∧
  decodeWord 0xF533 = some (.ldBVx 5) ∧ decodeWord 0x0000 = none

/-! The step cycle -/

/-- When the two bytes at the fetch address decode to an instruction, the step is that instruction's
`exec`, and around it only this: the fetch address is `pc`, or 0 when `pc` is 4096 (R101); the opcode
is big-endian (20_memory.md R58); the timer stage follows unless the instruction faulted (R106,
R107). -/
def Obligations.StepRunsTheDecodedInstruction : Prop :=
  (∀ (s : State) (i : Instr),
    s.run = .running → (fetchAddr s).toNat + 1 < 4096 →
    decodeWord (wordOfBytes (s.mem.read (fetchAddr s).toNat)
      (s.mem.read ((fetchAddr s).toNat + 1))) = some i →
    step s =
      match exec i s with
      | .next t => .next (if t.run = .faulted then t else timerStage t)
      | .fault f => .fault f
      | .refused r => .refused r) ∧
  (∀ s : State, fetchAddr s = if s.pc.toNat = 4096 then 0 else s.pc) ∧
  (∀ hi lo : Byte, (wordOfBytes hi lo).toNat = hi.toNat * 256 + lo.toNat)

/-- R75: an opcode matching no pattern is a no-op: `pc` advanced by 2, the timer stage, nothing else;
it never faults. -/
def Obligations.UnmatchedOpcodeIsNoOp : Prop :=
  ∀ s : State,
    s.run = .running → (fetchAddr s).toNat + 1 < 4096 →
    decodeWord (wordOfBytes (s.mem.read (fetchAddr s).toNat)
      (s.mem.read ((fetchAddr s).toNat + 1))) = none →
    step s = .next { s with
      pc := nextPc s
      DT := BitVec.ofNat 8 (s.DT.toNat - 1)
      ST := BitVec.ofNat 8 (s.ST.toNat - 1) }

/-- A fetch whose second byte would lie outside memory faults with `fop = 0` and nothing else happens
(40_step_cycle.md R102; the fault is the spec's decision D4). -/
def Obligations.FetchOutsideMemoryFaults : Prop :=
  ∀ s : State,
    s.run = .running → 4096 ≤ (fetchAddr s).toNat + 1 →
    step s = .next (faultEntry s 1 0 (fetchAddr s))

/-- The faulted state is sticky: any number of steps changes nothing (40_step_cycle.md R109,
60_exceptions.md R233; the spec's decision D2). -/
def Obligations.FaultedStateIsSticky : Prop :=
  ∀ (s : State) (n : Nat), s.run = .faulted → Host.Core.run Sys2Proof.core n s = .next s

/-- Faults are precise: a step that ends in the faulted state is the state before it with only the run
state and the fault record changed, `fpc` the fetch address, and `fop` the fetched opcode, or 0 when
the fetch itself faulted (60_exceptions.md R232; the spec's decisions D2 and D32). -/
def Obligations.FaultingStepIsPrecise : Prop :=
  ∀ s t : State,
    s.run = .running → step s = .next t → t.run = .faulted →
    ∃ (cause : Byte) (op info : Word),
      t = faultEntry s cause op info ∧ 1 ≤ cause.toNat ∧ cause.toNat ≤ 6 ∧
      ((cause = 1 ∧ op = 0 ∧ info = fetchAddr s ∧ 4096 ≤ (fetchAddr s).toNat + 1) ∨
        (cause ≠ 1 ∧ fetch s = .ok op))

/-- R107: each step that does not fault counts each timer down by one, never below 0, from the value
the instruction left: a timer written by Fx15 or Fx18 is counted down in the same step. -/
def Obligations.TimersCountDownOncePerStep : Prop :=
  ∀ s t : State,
    s.run = .running → step s = .next t → t.run = .running →
    ∃ op : Word, fetch s = .ok op ∧
      t.DT.toNat = (match decodeWord op with
        | some (.ldDTVx x) => (s.reg x).toNat
        | _ => s.DT.toNat) - 1 ∧
      t.ST.toNat = (match decodeWord op with
        | some (.ldSTVx x) => (s.reg x).toNat
        | _ => s.ST.toNat) - 1

/-- Where `pc` can be after a step that does not fault: the fetch address plus 2, plus 4, the fetch
address of a waiting Fx0A, or the target of 1nnn, 2nnn, Bnnn or 00EE (40_step_cycle.md R111, an
inference the spec marks as its own). -/
def Obligations.PcAfterAStep : Prop :=
  ∀ s t : State,
    s.run = .running → step s = .next t → t.run = .running →
    ∃ op : Word, fetch s = .ok op ∧
      (t.pc = fetchAddr s + 2 ∨
       (t.pc = fetchAddr s + 4 ∧ ∃ i : Instr, decodeWord op = some i ∧ mayWrite i = []) ∨
       (t.pc = fetchAddr s ∧ (∃ x : Reg, decodeWord op = some (.ldVxK x)) ∧
         ∀ k : Key, s.key[k.val] = false) ∨
       (∃ nnn : Addr, (decodeWord op = some (.jp nnn) ∨ decodeWord op = some (.call nnn)) ∧
         t.pc.toNat = nnn.toNat) ∨
       (∃ nnn : Addr, decodeWord op = some (.jpV0 nnn) ∧
         t.pc.toNat = nnn.toNat + (s.reg 0).toNat) ∨
       (decodeWord op = some .ret ∧
         ∃ j : StackSlot, j.val + 1 = s.sp.toNat ∧ t.pc = s.stack[j.val]))

/-! Invariants and the whole machine -/

/-- The machine right after reset meets the invariant (10_state.md R20 to R35). -/
def Obligations.ResetMeetsTheInvariant : Prop := State.reset.Inv

/-- Every step keeps the invariant: sp in 0..16 (R29), pc at most 0x10FE (R27), stack entries at most
4096, memory in canonical form inside its 4096 bytes, and the fault record zero while RUNNING and one
of the six causes while FAULTED (R35, 60_exceptions.md R231). -/
def Obligations.StepKeepsTheInvariant : Prop :=
  ∀ s t : State, s.Inv → step s = .next t → t.Inv

/-- From every state that meets the invariant a step answers a next state: neither the model's own
fault nor a refusal is reached ("every `step()` returns", 60_exceptions.md R257). -/
def Obligations.StepReturnsUnderTheInvariant : Prop := ∀ s : State, s.Inv → StepReturns s

/-- Any finite sequence of host transactions (load, step, set_key, framebuffer, tone, status, reset),
for any font table (00_scope.md R8) and from any state that meets the invariant, completes in a state
that meets it (60_exceptions.md R250, R257, R261). -/
def Obligations.HostRunsKeepTheInvariant : Prop :=
  ∀ (font : FontTable) (calls : List HostCall) (s : State), s.Inv →
    ∃ t : State, runCalls font calls s = .next t ∧ t.Inv

/-- The frame of every instruction, faulting or not: beside `pc` and the fault state it changes only
the parts the writers' lists of 10_state.md (R21, R24, R28 to R33) and 20_memory.md (R51) give it, and
of the registers only its destinations and, for 8xy4 to 8xyE and Dxyn, VF (R22). -/
def Obligations.FrameOfEveryInstruction : Prop :=
  ∀ (i : Instr) (s t : State), exec i s = .next t →
    OnlyChanges (.pc :: .fault :: mayWrite i) s t ∧
    ∀ r : Reg, mayWriteReg i r = false → t.reg r = s.reg r

/-- The keypad is seen only by Ex9E, ExA1 and Fx0A: under every other instruction two states that
differ only in the latch end alike but for the latch (10_state.md R32, 60_exceptions.md R236).  Under
Cxkk the two take the same draw, as states with equal counters do: the model's choice, log entry
17. -/
def Obligations.KeypadSeenOnlyByKeyInstructions : Prop :=
  ∀ (i : Instr) (s : State) (key : Keypad), readsKeypad i = false →
    exec i { s with key := key } = mapNext (fun t => { t with key := key }) (exec i s)

/-- No instruction reads the sound timer (10_state.md R31): two states that differ only in ST end
alike but for ST, and under Fx18 alike.  Under Cxkk the two take the same draw, as states with equal
counters do: the model's choice, log entry 17. -/
def Obligations.SoundTimerReadByNoInstruction : Prop :=
  ∀ (i : Instr) (s : State) (v : Timer),
    ((∀ x : Reg, i ≠ .ldSTVx x) →
      exec i { s with ST := v } = mapNext (fun t => { t with ST := v }) (exec i s)) ∧
    ((∃ x : Reg, i = .ldSTVx x) → exec i { s with ST := v } = exec i s)

/-! Control flow -/

/-- 00EE with sp in 1..16 completes: sp down by one, pc the entry it names, the entry kept, nothing
else changed (41_control_flow.md R122; that the entry is kept is the spec's decision D23). -/
def Obligations.RetRestoresPc : Prop :=
  EncodedAs .ret 0xFFFF 0x00EE ∧
  ∀ s : State, 1 ≤ s.sp.toNat → s.sp.toNat ≤ 16 →
    ∃ t : State, exec .ret s = .next t ∧ OnlyChanges [.sp, .pc] s t ∧
      t.sp.toNat = s.sp.toNat - 1 ∧
      ∀ j : StackSlot, j.val + 1 = s.sp.toNat → t.pc = s.stack[j.val]

/-- 00EE on an empty stack takes the fault STACK_UNDERFLOW, nothing else changed (R122; the spec's
decision D5); with sp above 16, a state that R29 rules out, it stops by name (log entry 4). -/
def Obligations.RetOfEmptyStackFaults : Prop :=
  ∀ s : State,
    (s.sp = 0 → exec .ret s = .next (faultEntry s 5 0x00EE 0)) ∧
    (16 < s.sp.toNat → exec .ret s = .fault (.stackEntryAbsent s.sp))

/-- 1nnn (R123): pc <- zext_16(nnn), nothing else changed, no fault. -/
def Obligations.JpSetsPc : Prop :=
  ∀ (nnn : Addr) (s : State), EncodedAs (.jp nnn) 0xF000 0x1000 ∧
    ∃ t : State, exec (.jp nnn) s = .next t ∧ OnlyChanges [.pc] s t ∧ t.pc.toNat = nnn.toNat

/-- 2nnn with sp below 16 completes: the advanced pc stored in entry sp and no other entry changed,
sp up by one, pc the target, nothing else changed (R124). -/
def Obligations.CallPushesTheReturnAddress : Prop :=
  ∀ (nnn : Addr) (s : State), EncodedAs (.call nnn) 0xF000 0x2000 ∧
    (s.sp.toNat < 16 →
      ∃ t : State, exec (.call nnn) s = .next t ∧ OnlyChanges [.stack, .sp, .pc] s t ∧
        (∀ j : StackSlot, t.stack[j.val] = if j.val = s.sp.toNat then nextPc s else s.stack[j.val]) ∧
        t.sp.toNat = s.sp.toNat + 1 ∧ t.pc.toNat = nnn.toNat)

/-- 2nnn at sp = 16 takes the fault STACK_OVERFLOW, nothing else changed (R124; the spec's decision
D5); with sp above 16, a state that R29 rules out, it stops by name (log entry 4). -/
def Obligations.CallOfFullStackFaults : Prop :=
  ∀ (nnn : Addr) (s : State),
    (s.sp.toNat = 16 →
      exec (.call nnn) s = .next (faultEntry s 4 (encode (.call nnn)) 16)) ∧
    (16 < s.sp.toNat → exec (.call nnn) s = .fault (.stackEntryAbsent s.sp))

/-- The round trip of a call and a return: a 00EE in any state that still holds the stack and sp the
2nnn left restores pc to the instruction after the 2nnn, and sp (R122, source example E4). -/
def Obligations.CallThenRetRoundTrip : Prop :=
  ∀ (nnn : Addr) (s t u : State), s.sp.toNat < 16 →
    exec (.call nnn) s = .next t → u.stack = t.stack → u.sp = t.sp →
    ∃ v : State, exec .ret u = .next v ∧ v.pc = nextPc s ∧ v.sp = s.sp

/-- 3xkk and 4xkk (R125, R126): skip when V[x] equals, or does not equal, kk; nothing but pc
changed, no fault. -/
def Obligations.SkipOnImmediate : Prop :=
  ∀ (x : Reg) (kk : Byte) (s : State),
    EncodedAs (.seImm x kk) 0xF000 0x3000 ∧ EncodedAs (.sneImm x kk) 0xF000 0x4000 ∧
    (∃ t : State, exec (.seImm x kk) s = .next t ∧ OnlyChanges [.pc] s t ∧
      t.pc = fetchAddr s + if s.reg x = kk then 4 else 2) ∧
    (∃ t : State, exec (.sneImm x kk) s = .next t ∧ OnlyChanges [.pc] s t ∧
      t.pc = fetchAddr s + if s.reg x = kk then 2 else 4)

/-- 5xy0 and 9xy0 (R127, R128): skip when V[x] equals, or does not equal, V[y]; nothing but pc
changed, no fault; the same families with a fourth nibble other than 0 match no pattern. -/
def Obligations.SkipOnRegisters : Prop :=
  (∀ (x y : Reg) (s : State),
    EncodedAs (.seReg x y) 0xF00F 0x5000 ∧ EncodedAs (.sneReg x y) 0xF00F 0x9000 ∧
    (∃ t : State, exec (.seReg x y) s = .next t ∧ OnlyChanges [.pc] s t ∧
      t.pc = fetchAddr s + if s.reg x = s.reg y then 4 else 2) ∧
    (∃ t : State, exec (.sneReg x y) s = .next t ∧ OnlyChanges [.pc] s t ∧
      t.pc = fetchAddr s + if s.reg x = s.reg y then 2 else 4)) ∧
  ∀ op : Word, (d1 op = 0x5 ∨ d1 op = 0x9) → d4 op ≠ 0x0 → decodeWord op = none

/-- Bnnn: pc <- zext_16(nnn) + V[0], not reduced, always V0, nothing else changed, no fault
(41_control_flow.md R129; what the next fetch then does is `StepRunsTheDecodedInstruction` and
`FetchOutsideMemoryFaults`). -/
def Obligations.JpV0SetsPcToTheSum : Prop :=
  ∀ (nnn : Addr) (s : State), EncodedAs (.jpV0 nnn) 0xF000 0xB000 ∧
    ∃ t : State, exec (.jpV0 nnn) s = .next t ∧ OnlyChanges [.pc] s t ∧
      t.pc.toNat = nnn.toNat + (s.reg 0).toNat ∧ t.pc.toNat ≤ 0x10FE

/-! Register and ALU instructions -/

/-- 6xkk (R141): V[x] <- kk, no other register and no flag, no fault. -/
def Obligations.LdImmWritesTheRegister : Prop :=
  ∀ (x : Reg) (kk : Byte) (s : State), EncodedAs (.ldImm x kk) 0xF000 0x6000 ∧
    ∃ t : State, exec (.ldImm x kk) s = .next t ∧ RegWrite s t x kk

/-- 7xkk (R142): V[x] <- (V[x] + kk) mod 256, VF untouched unless x = 15, no fault. -/
def Obligations.AddImmWrapsWithoutFlag : Prop :=
  ∀ (x : Reg) (kk : Byte) (s : State), EncodedAs (.addImm x kk) 0xF000 0x7000 ∧
    ∃ (t : State) (v : Byte), exec (.addImm x kk) s = .next t ∧ RegWrite s t x v ∧
      v.toNat = ((s.reg x).toNat + kk.toNat) % 256

/-- 8xy0 (R143): V[x] <- V[y], nothing else, no fault. -/
def Obligations.LdRegCopies : Prop :=
  ∀ (x y : Reg) (s : State), EncodedAs (.ldReg x y) 0xF00F 0x8000 ∧
    ∃ t : State, exec (.ldReg x y) s = .next t ∧ RegWrite s t x (s.reg y)

/-- 8xy1, 8xy2, 8xy3 (R144, R145, R146): each bit of V[x] is the OR, AND or XOR of the bits of V[x]
and V[y]; VF untouched unless x = 15, no fault. -/
def Obligations.LogicActsBitByBit : Prop :=
  ∀ (x y : Reg) (s : State),
    (EncodedAs (.orReg x y) 0xF00F 0x8001 ∧
      ∃ (t : State) (v : Byte), exec (.orReg x y) s = .next t ∧ RegWrite s t x v ∧
        ∀ k : Nat, v.getLsbD k = ((s.reg x).getLsbD k || (s.reg y).getLsbD k)) ∧
    (EncodedAs (.andReg x y) 0xF00F 0x8002 ∧
      ∃ (t : State) (v : Byte), exec (.andReg x y) s = .next t ∧ RegWrite s t x v ∧
        ∀ k : Nat, v.getLsbD k = ((s.reg x).getLsbD k && (s.reg y).getLsbD k)) ∧
    (EncodedAs (.xorReg x y) 0xF00F 0x8003 ∧
      ∃ (t : State) (v : Byte), exec (.xorReg x y) s = .next t ∧ RegWrite s t x v ∧
        ∀ k : Nat, v.getLsbD k = ((s.reg x).getLsbD k ^^ (s.reg y).getLsbD k))

/-- 8xy4: V[x] the sum modulo 256 of the old operands, VF the carry; with x = 15 the sum overwrites
the carry (42_alu.md R147; the x = 15 clause is the reading of the spec's decision D11, log entry
7). -/
def Obligations.AddRegSetsCarry : Prop :=
  ∀ (x y : Reg) (s : State), EncodedAs (.addReg x y) 0xF00F 0x8004 ∧
    ∃ t : State, exec (.addReg x y) s = .next t ∧ OnlyChanges [.V, .pc] s t ∧ t.pc = nextPc s ∧
      (∀ r : Reg, r ≠ x → r ≠ 15 → t.reg r = s.reg r) ∧
      (t.reg x).toNat = ((s.reg x).toNat + (s.reg y).toNat) % 256 ∧
      (x ≠ 15 → t.reg 15 = if (s.reg x).toNat + (s.reg y).toNat > 255 then 1 else 0)

/-- 8xy5: VF is 1 exactly when V[x] > V[y], V[x] the difference modulo 256; the cases x = 15 and
y = 15 read the statements in order, so the flag is then an operand (42_alu.md R148; those clauses are
the reading of the spec's decision D11, log entry 7). -/
def Obligations.SubRegSetsStrictGreater : Prop :=
  ∀ (x y : Reg) (s : State), EncodedAs (.subReg x y) 0xF00F 0x8005 ∧
    ∃ (t : State) (flag : Nat), exec (.subReg x y) s = .next t ∧ OnlyChanges [.V, .pc] s t ∧
      t.pc = nextPc s ∧ (flag = if (s.reg x).toNat > (s.reg y).toNat then 1 else 0) ∧
      (∀ r : Reg, r ≠ x → r ≠ 15 → t.reg r = s.reg r) ∧
      (x ≠ 15 → (t.reg 15).toNat = flag) ∧
      (x ≠ 15 → y ≠ 15 → (t.reg x).toNat = ((s.reg x).toNat + 256 - (s.reg y).toNat) % 256) ∧
      (x = 15 → y ≠ 15 → (t.reg 15).toNat = (flag + 256 - (s.reg y).toNat) % 256) ∧
      (x ≠ 15 → y = 15 → (t.reg x).toNat = ((s.reg x).toNat + 256 - flag) % 256) ∧
      (x = 15 → y = 15 → t.reg 15 = 0)

/-- 8xy6: V[x] halved, VF its bit 0, V[y] ignored; with x = 15 VF ends 0 (42_alu.md R149; the x = 15
clause is the reading of the spec's decision D11, log entry 7). -/
def Obligations.ShrShiftsVxRight : Prop :=
  ∀ (x y : Reg) (s : State), EncodedAs (.shr x y) 0xF00F 0x8006 ∧
    ∃ t : State, exec (.shr x y) s = .next t ∧ OnlyChanges [.V, .pc] s t ∧ t.pc = nextPc s ∧
      (∀ r : Reg, r ≠ x → r ≠ 15 → t.reg r = s.reg r) ∧
      (x ≠ 15 → (t.reg x).toNat = (s.reg x).toNat / 2 ∧ (t.reg 15).toNat = (s.reg x).toNat % 2) ∧
      (x = 15 → t.reg 15 = 0)

/-- 8xy7: VF is 1 exactly when V[y] > V[x], V[x] the reverse difference modulo 256; the cases x = 15
and y = 15 read the statements in order (42_alu.md R150; those clauses are the reading of the spec's
decision D11, log entry 7). -/
def Obligations.SubnRegSetsStrictLess : Prop :=
  ∀ (x y : Reg) (s : State), EncodedAs (.subnReg x y) 0xF00F 0x8007 ∧
    ∃ (t : State) (flag : Nat), exec (.subnReg x y) s = .next t ∧ OnlyChanges [.V, .pc] s t ∧
      t.pc = nextPc s ∧ (flag = if (s.reg y).toNat > (s.reg x).toNat then 1 else 0) ∧
      (∀ r : Reg, r ≠ x → r ≠ 15 → t.reg r = s.reg r) ∧
      (x ≠ 15 → (t.reg 15).toNat = flag) ∧
      (x ≠ 15 → y ≠ 15 → (t.reg x).toNat = ((s.reg y).toNat + 256 - (s.reg x).toNat) % 256) ∧
      (x = 15 → y ≠ 15 → (t.reg 15).toNat = ((s.reg y).toNat + 256 - flag) % 256) ∧
      (x ≠ 15 → y = 15 → (t.reg x).toNat = (flag + 256 - (s.reg x).toNat) % 256) ∧
      (x = 15 → y = 15 → t.reg 15 = 0)

/-- 8xyE: V[x] doubled modulo 256, VF its bit 7, V[y] ignored; with x = 15 VF ends 2 when bit 7 was
set, else 0 (42_alu.md R151; the x = 15 clause is the reading of the spec's decision D11, log entry
7). -/
def Obligations.ShlShiftsVxLeft : Prop :=
  ∀ (x y : Reg) (s : State), EncodedAs (.shl x y) 0xF00F 0x800E ∧
    ∃ t : State, exec (.shl x y) s = .next t ∧ OnlyChanges [.V, .pc] s t ∧ t.pc = nextPc s ∧
      (∀ r : Reg, r ≠ x → r ≠ 15 → t.reg r = s.reg r) ∧
      (x ≠ 15 →
        (t.reg x).toNat = (s.reg x).toNat * 2 % 256 ∧ (t.reg 15).toNat = (s.reg x).toNat / 128) ∧
      (x = 15 → t.reg 15 = if (s.reg 15).toNat ≥ 128 then 2 else 0)

/-- Cxkk: V[x] <- rnd AND kk for the draw `rnd`, a free value that nothing constrains; with kk = 0 the
result is 0 for every draw (42_alu.md R152, the spec's open parameter D14; that the draw is selected
by the counter `draws` is the model's choice, log entries 5 and 17). -/
def Obligations.RndMasksAFreeDraw : Prop :=
  ∀ (x : Reg) (kk : Byte) (s : State), EncodedAs (.rnd x kk) 0xF000 0xC000 ∧
    ∃ (t : State) (v : Byte), exec (.rnd x kk) s = .next t ∧ OnlyChanges [.V, .pc, .draws] s t ∧
      t.pc = nextPc s ∧ t.draws = s.draws + 1 ∧
      (∀ r : Reg, t.reg r = if r = x then v else s.reg r) ∧
      (∀ k : Nat, v.getLsbD k = ((Config.randomByte s.draws).getLsbD k && kk.getLsbD k)) ∧
      (kk = 0 → v = 0)

/-- The table of 93_implementation_defined.md section 2, row by row: the results of 8xy4 to 8xyE with
register 15 as x or y under the two other readings, OPERANDS_FIRST and FLAG_LAST (the parameter
VF_ALIAS_READING, decision D11; the model's default is SEQUENTIAL, log entry 7).  `f`, `a`, `b` are
the old VF, V[x], V[y].  The last clauses are the cases the section says are the same under every
reading. -/
def Obligations.OtherAliasReadings : Prop :=
  ∀ (x y : Reg) (s : State), x ≠ 15 →
    let f := s.reg 15; let a := s.reg x; let b := s.reg y
    let bit : Prop → Byte → Prop := fun p v => (p → v = 1) ∧ (¬p → v = 0)
    -- 8xy4, x = 15 and x = y = 15
    ((writeCarry .operandsFirst carryFlag sumByte 15 y s).reg 15).toNat =
      (f.toNat + b.toNat) % 256 ∧
    bit (f.toNat + b.toNat > 255) ((writeCarry .flagLast carryFlag sumByte 15 y s).reg 15) ∧
    ((writeCarry .operandsFirst carryFlag sumByte 15 15 s).reg 15).toNat = 2 * f.toNat % 256 ∧
    bit (2 * f.toNat > 255) ((writeCarry .flagLast carryFlag sumByte 15 15 s).reg 15) ∧
    -- 8xy5, x = 15, y = 15 and x = y = 15
    (writeFlagged .operandsFirst greaterFlag diffByte 15 y s).reg 15 = f - b ∧
    bit (f.toNat > b.toNat) ((writeFlagged .flagLast greaterFlag diffByte 15 y s).reg 15) ∧
    (∀ r : VfReading, r = .operandsFirst ∨ r = .flagLast →
      (writeFlagged r greaterFlag diffByte x 15 s).reg x = a - f ∧
      bit (a.toNat > f.toNat) ((writeFlagged r greaterFlag diffByte x 15 s).reg 15) ∧
      (writeFlagged r greaterFlag diffByte 15 15 s).reg 15 = 0) ∧
    -- 8xy6, x = 15
    (writeFlagged .operandsFirst lowBitFlag shrByte 15 y s).reg 15 = f >>> 1 ∧
    (writeFlagged .flagLast lowBitFlag shrByte 15 y s).reg 15 = f &&& 1 ∧
    -- 8xy7, x = 15, y = 15 and x = y = 15
    (writeFlagged .operandsFirst lessFlag revDiffByte 15 y s).reg 15 = b - f ∧
    bit (b.toNat > f.toNat) ((writeFlagged .flagLast lessFlag revDiffByte 15 y s).reg 15) ∧
    (∀ r : VfReading, r = .operandsFirst ∨ r = .flagLast →
      (writeFlagged r lessFlag revDiffByte x 15 s).reg x = f - a ∧
      bit (f.toNat > a.toNat) ((writeFlagged r lessFlag revDiffByte x 15 s).reg 15) ∧
      (writeFlagged r lessFlag revDiffByte 15 15 s).reg 15 = 0) ∧
    -- 8xyE, x = 15
    (writeFlagged .operandsFirst highBitFlag shlByte 15 y s).reg 15 = f <<< 1 ∧
    (writeFlagged .flagLast highBitFlag shlByte 15 y s).reg 15 = f >>> 7 ∧
    -- the cases not listed: x is not 15, and for 8xy5 and 8xy7 y is not 15 either
    (∀ r : VfReading,
      writeCarry r carryFlag sumByte x y s = writeCarry .sequential carryFlag sumByte x y s ∧
      writeFlagged r lowBitFlag shrByte x y s = writeFlagged .sequential lowBitFlag shrByte x y s ∧
      writeFlagged r highBitFlag shlByte x y s =
        writeFlagged .sequential highBitFlag shlByte x y s ∧
      (y ≠ 15 →
        writeFlagged r greaterFlag diffByte x y s =
          writeFlagged .sequential greaterFlag diffByte x y s ∧
        writeFlagged r lessFlag revDiffByte x y s =
          writeFlagged .sequential lessFlag revDiffByte x y s))

/-! Index register and memory instructions -/

/-- Annn (R170): I <- zext_16(nnn), nothing else, no fault. -/
def Obligations.LdISetsTheIndex : Prop :=
  ∀ (nnn : Addr) (s : State), EncodedAs (.ldI nnn) 0xF000 0xA000 ∧
    ∃ t : State, exec (.ldI nnn) s = .next t ∧ OnlyChanges [.I, .pc] s t ∧ t.pc = nextPc s ∧
      t.I.toNat = nnn.toNat

/-- Fx1E: I <- (I + V[x]) mod 65536, no flag, no fault (43_index_memory.md R171; the wrap and the
untouched VF are the spec's decision D12). -/
def Obligations.AddIWrapsWithoutFlag : Prop :=
  ∀ (x : Reg) (s : State), EncodedAs (.addIVx x) 0xF0FF 0xF01E ∧
    ∃ t : State, exec (.addIVx x) s = .next t ∧ OnlyChanges [.I, .pc] s t ∧ t.pc = nextPc s ∧
      t.I.toNat = (s.I.toNat + (s.reg x).toNat) % 65536

/-- Fx29: I <- 0x050 + 5 times the low nibble of V[x], no flag, no fault (43_index_memory.md R172; the
low nibble is the spec's decision D7). -/
def Obligations.LdFPointsAtTheGlyph : Prop :=
  ∀ (x : Reg) (s : State), EncodedAs (.ldFVx x) 0xF0FF 0xF029 ∧
    ∃ t : State, exec (.ldFVx x) s = .next t ∧ OnlyChanges [.I, .pc] s t ∧ t.pc = nextPc s ∧
      t.I.toNat = 0x050 + 5 * ((s.reg x).toNat % 16)

/-- Fx33 inside memory completes: the three digits at I, I + 1, I + 2, every other byte and
everything else as before (43_index_memory.md R173). -/
def Obligations.BcdStoresThreeDigits : Prop :=
  ∀ (x : Reg) (s : State), EncodedAs (.ldBVx x) 0xF0FF 0xF033 ∧
    (s.mem.wf → indexAddr s + 2 < 4096 →
      ∃ t : State, exec (.ldBVx x) s = .next t ∧ OnlyChanges [.mem, .pc] s t ∧ t.pc = nextPc s ∧
        (t.mem.read (indexAddr s)).toNat = (s.reg x).toNat / 100 ∧
        (t.mem.read (indexAddr s + 1)).toNat = (s.reg x).toNat / 10 % 10 ∧
        (t.mem.read (indexAddr s + 2)).toNat = (s.reg x).toNat % 10 ∧
        ∀ a : Nat, (a < indexAddr s ∨ indexAddr s + 2 < a) → t.mem.read a = s.mem.read a)

/-- Fx55 inside memory completes: V[k] at I + k for each k up to x, every other byte and everything
else as before, I too (43_index_memory.md R174; the unchanged I is the spec's decision D13). -/
def Obligations.StRegsStoresTheBlock : Prop :=
  ∀ (x : Reg) (s : State), EncodedAs (.stRegs x) 0xF0FF 0xF055 ∧
    (s.mem.wf → indexAddr s + x.val < 4096 →
      ∃ t : State, exec (.stRegs x) s = .next t ∧ OnlyChanges [.mem, .pc] s t ∧ t.pc = nextPc s ∧
        (∀ k : Reg, k ≤ x → t.mem.read (indexAddr s + k.val) = s.reg k) ∧
        ∀ a : Nat, (a < indexAddr s ∨ indexAddr s + x.val < a) → t.mem.read a = s.mem.read a)

/-- Fx65 inside memory completes: V[k] the byte at I + k for each k up to x, the registers above x and
everything else as before, I too (43_index_memory.md R175; the unchanged I is the spec's decision
D13). -/
def Obligations.LdRegsLoadsTheBlock : Prop :=
  ∀ (x : Reg) (s : State), EncodedAs (.ldRegs x) 0xF0FF 0xF065 ∧
    (indexAddr s + x.val < 4096 →
      ∃ t : State, exec (.ldRegs x) s = .next t ∧ OnlyChanges [.V, .pc] s t ∧ t.pc = nextPc s ∧
        ∀ r : Reg, t.reg r = if r ≤ x then s.mem.read (indexAddr s + r.val) else s.reg r)

/-- Fx33 and Fx55 that would reach address 4096 or above take the fault MEM_WRITE_OUT_OF_RANGE at the
first such address and store nothing (R173, R174, 20_memory.md R57; the spec's decision D3). -/
def Obligations.StoresOutsideMemoryFault : Prop :=
  ∀ (x : Reg) (s : State),
    (4096 ≤ indexAddr s + 2 →
      exec (.ldBVx x) s =
        .next (faultEntry s 3 (encode (.ldBVx x)) (BitVec.ofNat 16 (max (indexAddr s) 4096)))) ∧
    (4096 ≤ indexAddr s + x.val →
      exec (.stRegs x) s =
        .next (faultEntry s 3 (encode (.stRegs x)) (BitVec.ofNat 16 (max (indexAddr s) 4096))))

/-- Fx65 and Dxyn with n at least 1 that would reach address 4096 or above take the fault
MEM_READ_OUT_OF_RANGE at the first such address, no register and no pixel written (R175, R192; the
spec's decisions D3 and D28). -/
def Obligations.LoadsOutsideMemoryFault : Prop :=
  ∀ (x y : Reg) (n : Nibble) (s : State),
    (4096 ≤ indexAddr s + x.val →
      exec (.ldRegs x) s =
        .next (faultEntry s 2 (encode (.ldRegs x)) (BitVec.ofNat 16 (max (indexAddr s) 4096)))) ∧
    (1 ≤ n.toNat → 4096 ≤ indexAddr s + n.toNat - 1 →
      exec (.drw x y n) s =
        .next (faultEntry s 2 (encode (.drw x y n)) (BitVec.ofNat 16 (max (indexAddr s) 4096))))

/-- Fx55 and then Fx65 with the same x gives back every register (43_index_memory.md R174, R175). -/
def Obligations.StoreThenLoadRestoresRegisters : Prop :=
  ∀ (x : Reg) (s t u : State), s.mem.wf → indexAddr s + x.val < 4096 →
    exec (.stRegs x) s = .next t → u.mem = t.mem → u.I = t.I →
    ∃ v : State, exec (.ldRegs x) u = .next v ∧
      (∀ r : Reg, r ≤ x → v.reg r = s.reg r) ∧ ∀ r : Reg, x < r → v.reg r = u.reg r

/-! Display -/

/-- 00E0 (R191): every pixel off, VF not written, nothing else changed, no fault. -/
def Obligations.ClsClearsEveryPixel : Prop :=
  EncodedAs .cls 0xFFFF 0x00E0 ∧
  ∀ s : State, ∃ t : State, exec .cls s = .next t ∧ OnlyChanges [.fb, .pc] s t ∧ t.pc = nextPc s ∧
    ∀ x y : Nat, pix t.fb x y = false

/-- Dxyn inside memory completes: with the origin V[x] mod 64, V[y] mod 32, each pixel on the screen is
toggled exactly when a set bit of the sprite covers it, VF is 1 exactly when a covered pixel was on,
and nothing else is changed (44_display.md R192 to R196; clipping and bit order are the spec's
decisions D8 and D9). -/
def Obligations.DrwTogglesTheCoveredPixels : Prop :=
  ∀ (x y : Reg) (n : Nibble) (s : State), EncodedAs (.drw x y n) 0xF000 0xD000 ∧
    (n.toNat = 0 ∨ indexAddr s + n.toNat ≤ 4096 →
      let x0 := (s.reg x).toNat % 64; let y0 := (s.reg y).toNat % 32
      ∃ t : State, exec (.drw x y n) s = .next t ∧ OnlyChanges [.V, .fb, .pc] s t ∧
        t.pc = nextPc s ∧ (∀ r : Reg, r ≠ 15 → t.reg r = s.reg r) ∧
        (∀ px py : Nat, px < 64 → py < 32 →
          pix t.fb px py = (pix s.fb px py ^^ spriteCovers s n.toNat x0 y0 px py)) ∧
        ((∃ px py : Nat, px < 64 ∧ py < 32 ∧ pix s.fb px py = true ∧
            spriteCovers s n.toNat x0 y0 px py = true) → t.reg 15 = 1) ∧
        ((∀ px py : Nat, px < 64 → py < 32 → spriteCovers s n.toNat x0 y0 px py = true →
            pix s.fb px py = false) → t.reg 15 = 0))

/-- Drawing the same sprite twice at the same place gives back the framebuffer, and the second draw's
VF is 1 if the first turned a pixel on (44_display.md R197, an inference the spec marks as its own). -/
def Obligations.DoubleDrawRestoresTheScreen : Prop :=
  ∀ (x y : Reg) (n : Nibble) (s t u : State), x ≠ 15 → y ≠ 15 →
    n.toNat = 0 ∨ indexAddr s + n.toNat ≤ 4096 →
    exec (.drw x y n) s = .next t → exec (.drw x y n) t = .next u →
    (∀ px py : Nat, pix u.fb px py = pix s.fb px py) ∧
    ((∃ px py : Nat, pix s.fb px py = false ∧ pix t.fb px py = true) → u.reg 15 = 1)

/-! Keypad and timers -/

/-- Ex9E and ExA1 with V[x] at most 15 complete: skip when that key is pressed, or is not; nothing but
pc changed (45_keypad_timers.md R210, R211). -/
def Obligations.SkipOnKey : Prop :=
  ∀ (x : Reg) (s : State) (k : Key),
    EncodedAs (.skp x) 0xF0FF 0xE09E ∧ EncodedAs (.sknp x) 0xF0FF 0xE0A1 ∧
    ((s.reg x).toNat = k.val →
      (∃ t : State, exec (.skp x) s = .next t ∧ OnlyChanges [.pc] s t ∧
        t.pc = fetchAddr s + if s.key[k.val] = true then 4 else 2) ∧
      (∃ t : State, exec (.sknp x) s = .next t ∧ OnlyChanges [.pc] s t ∧
        t.pc = fetchAddr s + if s.key[k.val] = true then 2 else 4))

/-- Ex9E and ExA1 with V[x] above 15 take the fault KEY_INDEX_OUT_OF_RANGE with the index as info
(R210, R211; the spec's decision D6). -/
def Obligations.KeyIndexAbove15Faults : Prop :=
  ∀ (x : Reg) (s : State), 15 < (s.reg x).toNat →
    exec (.skp x) s =
      .next (faultEntry s 6 (encode (.skp x)) (BitVec.ofNat 16 (s.reg x).toNat)) ∧
    exec (.sknp x) s =
      .next (faultEntry s 6 (encode (.sknp x)) (BitVec.ofNat 16 (s.reg x).toNat))

/-- Fx07: V[x] <- DT as it was at the start of the step, DT itself left to the timer stage, no fault
(45_keypad_timers.md R212). -/
def Obligations.LdVxDTReadsTheTimer : Prop :=
  ∀ (x : Reg) (s : State), EncodedAs (.ldVxDT x) 0xF0FF 0xF007 ∧
    ∃ t : State, exec (.ldVxDT x) s = .next t ∧ RegWrite s t x s.DT

/-- Fx0A: with keys pressed V[x] is the lowest pressed key's number; with none pressed nothing but pc
changes and pc is this instruction's own address; no fault (45_keypad_timers.md R213). -/
def Obligations.LdVxKWaitsForAKey : Prop :=
  ∀ (x : Reg) (s : State), EncodedAs (.ldVxK x) 0xF0FF 0xF00A ∧
    (∀ k : Key, s.key[k.val] = true → (∀ j : Key, j < k → s.key[j.val] = false) →
      ∃ (t : State) (v : Byte), exec (.ldVxK x) s = .next t ∧ RegWrite s t x v ∧ v.toNat = k.val) ∧
    ((∀ k : Key, s.key[k.val] = false) →
      ∃ t : State, exec (.ldVxK x) s = .next t ∧ OnlyChanges [.pc] s t ∧ t.pc = fetchAddr s)

/-- Fx15 and Fx18: DT <- V[x], ST <- V[x], nothing else, no fault; at the end of a step of a RUNNING
core the timer written has been counted down once (45_keypad_timers.md R214, R215). -/
def Obligations.TimerWritesSetOneTimer : Prop :=
  ∀ (x : Reg) (s : State),
    (EncodedAs (.ldDTVx x) 0xF0FF 0xF015 ∧
      ∃ t : State, exec (.ldDTVx x) s = .next t ∧ OnlyChanges [.DT, .pc] s t ∧ t.pc = nextPc s ∧
        t.DT = s.reg x ∧
        (s.run = .running → ∃ u : State, retire (exec (.ldDTVx x) s) = .next u ∧
          u.DT.toNat = (s.reg x).toNat - 1)) ∧
    (EncodedAs (.ldSTVx x) 0xF0FF 0xF018 ∧
      ∃ t : State, exec (.ldSTVx x) s = .next t ∧ OnlyChanges [.ST, .pc] s t ∧ t.pc = nextPc s ∧
        t.ST = s.reg x ∧
        (s.run = .running → ∃ u : State, retire (exec (.ldSTVx x) s) = .next u ∧
          u.ST.toNat = (s.reg x).toNat - 1))

/-! Host ports, loading, reset -/

/-- `load` of at most 3584 bytes, for any font table: the font at 0x050, the bytes at 0x200, pc 0x200,
every other byte and everything else as before, in any state (70_reset_and_hazards.md R273, R275; that
nothing else changes is the spec's decision D16). -/
def Obligations.LoadWritesFontAndProgram : Prop :=
  ∀ (font : FontTable) (bytes : List Byte) (s : State), s.mem.wf → bytes.length ≤ 3584 →
    ∃ t : State, loadWith font bytes s = (.loadOk, t) ∧ OnlyChanges [.mem, .pc] s t ∧
      t.pc = 0x200 ∧ t.mem.wf ∧
      (∀ i : Fin 80, t.mem.read (0x050 + i.val) = font[i.val]) ∧
      (∀ j : Nat, j < bytes.length → t.mem.read (0x200 + j) = bytes.getD j 0) ∧
      ∀ a : Nat, ¬(0x050 ≤ a ∧ a < 0x0A0) → ¬(0x200 ≤ a ∧ a < 0x200 + bytes.length) →
        t.mem.read a = s.mem.read a

/-- `load` of more than 3584 bytes returns LoadError and changes nothing (70_reset_and_hazards.md
R274; that nothing beside memory changes is the spec's decision D16). -/
def Obligations.LoadTooLongChangesNothing : Prop :=
  ∀ (font : FontTable) (bytes : List Byte) (s : State), 3584 < bytes.length →
    loadWith font bytes s = (.loadError, s)

/-- `set_key` writes its slot and nothing else; cell i of the framebuffer view is 1 exactly when
`Pix(i mod 64, i div 64)` is on; the tone is on exactly when ST is not 0 (60_exceptions.md R252, R253,
R245; the one-bit cells and the level are the spec's decisions D10 and D17). -/
def Obligations.HostPortsShowAndSetOneThing : Prop :=
  (∀ (id : Key) (b : Bool) (s : State), OnlyChanges [.key] s (setKey id b s) ∧
    ∀ k : Key, (setKey id b s).key[k.val] = if k = id then b else s.key[k.val]) ∧
  (∀ (s : State) (i : Fin 2048),
    (framebufferView s)[i.val] = 1 ↔ pix s.fb (i.val % 64) (i.val / 64) = true) ∧
  ∀ s : State, toneOn s = true ↔ s.ST ≠ 0

/-- Construction zeroes every element of the state: registers, I, pc, stack, sp, timers and every byte
of memory 0, keys released, pixels off, RUNNING with a zero fault record (70_reset_and_hazards.md
R270; that construction is the reset is the spec's decision D31); a reset later gives the same, the
model's own draw counter apart (log entry 5). -/
def Obligations.ResetZeroesTheState : Prop :=
  ∀ s : State,
    let t := s.reconstruct
    (∀ r : Reg, t.reg r = 0) ∧ t.I = 0 ∧ t.pc = 0 ∧ (∀ j : StackSlot, t.stack[j.val] = 0) ∧ t.sp = 0 ∧
    t.DT = 0 ∧ t.ST = 0 ∧ (∀ k : Key, t.key[k.val] = false) ∧
    (∀ x y : Nat, pix t.fb x y = false) ∧ (∀ a : Nat, t.mem.read a = 0) ∧ t.run = .running ∧
    t.fcause = 0 ∧ t.fpc = 0 ∧ t.fop = 0 ∧ t.finfo = 0 ∧
    { t with draws := 0 } = State.reset
end

