-- ==== Sys2Proof/Laws/Decode.lean ====
section
/-!
SUPPORT. The nibbles of an opcode, and the fields put together again from their nibbles.
-/

namespace Sys2Proof

/-- The nibble d1 of an opcode made of nibbles. -/
@[simp] theorem d1_ofNibbles (a b c d : Nibble) : d1 (ofNibbles a b c d) = a := by
  apply BitVec.eq_of_getLsbD_eq
  intro i hi
  simp only [d1, ofNibbles, BitVec.getLsbD_extractLsb', BitVec.getLsbD_append]
  simp [hi, show ¬(12 + i < 4) by omega, show ¬(12 + i - 4 < 4) by omega,
    show ¬(12 + i - 4 - 4 < 4) by omega, show 12 + i - 4 - 4 - 4 = i by omega]

/-- The nibble d2 of an opcode made of nibbles. -/
@[simp] theorem d2_ofNibbles (a b c d : Nibble) : d2 (ofNibbles a b c d) = b := by
  apply BitVec.eq_of_getLsbD_eq
  intro i hi
  simp only [d2, ofNibbles, BitVec.getLsbD_extractLsb', BitVec.getLsbD_append]
  simp [hi, show ¬(8 + i < 4) by omega, show ¬(8 + i - 4 < 4) by omega,
    show 8 + i - 4 - 4 = i by omega]

/-- The nibble d3 of an opcode made of nibbles. -/
@[simp] theorem d3_ofNibbles (a b c d : Nibble) : d3 (ofNibbles a b c d) = c := by
  apply BitVec.eq_of_getLsbD_eq
  intro i hi
  simp only [d3, ofNibbles, BitVec.getLsbD_extractLsb', BitVec.getLsbD_append]
  simp [hi, show ¬(4 + i < 4) by omega, show 4 + i - 4 = i by omega]

/-- The nibble d4 of an opcode made of nibbles. -/
@[simp] theorem d4_ofNibbles (a b c d : Nibble) : d4 (ofNibbles a b c d) = d := by
  apply BitVec.eq_of_getLsbD_eq
  intro i hi
  simp only [d4, ofNibbles, BitVec.getLsbD_extractLsb', BitVec.getLsbD_append]
  simp [hi]

/-- An opcode is its four nibbles. -/
theorem ofNibbles_eta (op : Word) : ofNibbles (d1 op) (d2 op) (d3 op) (d4 op) = op := by
  apply BitVec.eq_of_getLsbD_eq
  intro i hi
  simp only [d1, d2, d3, d4, ofNibbles, BitVec.getLsbD_extractLsb', BitVec.getLsbD_append]
  by_cases h1 : i < 4
  · simp [h1]
  · by_cases h2 : i - 4 < 4
    · simp [h1, h2, show 4 + (i - 4) = i by omega]
    · by_cases h3 : i - 4 - 4 < 4
      · simp [h1, h2, h3, show 8 + (i - 4 - 4) = i by omega]
      · simp [h1, h2, h3, show i - 4 - 4 - 4 < 4 by omega,
          show 12 + (i - 4 - 4 - 4) = i by omega]

/-- The byte of its two nibbles. -/
@[simp] theorem kkOf_nibbles (kk : Byte) : kkOf (kk.extractLsb' 4 4) (kk.extractLsb' 0 4) = kk := by
  apply BitVec.eq_of_getLsbD_eq
  intro i hi
  simp only [kkOf, BitVec.getLsbD_extractLsb', BitVec.getLsbD_append]
  by_cases h1 : i < 4
  · simp [h1]
  · simp [h1, show i - 4 < 4 by omega, show 4 + (i - 4) = i by omega]

/-- The high nibble of a byte made of nibbles. -/
@[simp] theorem kkOf_high (a b : Nibble) : (kkOf a b).extractLsb' 4 4 = a := by
  apply BitVec.eq_of_getLsbD_eq
  intro i hi
  simp only [kkOf, BitVec.getLsbD_extractLsb', BitVec.getLsbD_append]
  simp [hi]

/-- The low nibble of a byte made of nibbles. -/
@[simp] theorem kkOf_low (a b : Nibble) : (kkOf a b).extractLsb' 0 4 = b := by
  apply BitVec.eq_of_getLsbD_eq
  intro i hi
  simp only [kkOf, BitVec.getLsbD_extractLsb', BitVec.getLsbD_append]
  simp [hi]

/-- The address of its three nibbles. -/
@[simp] theorem nnnOf_nibbles (a : Addr) :
    nnnOf (a.extractLsb' 8 4) (a.extractLsb' 4 4) (a.extractLsb' 0 4) = a := by
  apply BitVec.eq_of_getLsbD_eq
  intro i hi
  simp only [nnnOf, BitVec.getLsbD_extractLsb', BitVec.getLsbD_append]
  by_cases h1 : i < 4
  · simp [h1]
  · by_cases h2 : i - 4 < 4
    · simp [h1, h2, show 4 + (i - 4) = i by omega]
    · simp [h1, h2, show i - 4 - 4 < 4 by omega, show 8 + (i - 4 - 4) = i by omega]

/-- The nibbles of an address made of nibbles. -/
@[simp] theorem nnnOf_high (a b c : Nibble) : (nnnOf a b c).extractLsb' 8 4 = a := by
  apply BitVec.eq_of_getLsbD_eq
  intro i hi
  simp only [nnnOf, BitVec.getLsbD_extractLsb', BitVec.getLsbD_append]
  simp [hi, show ¬(8 + i < 4) by omega, show ¬(8 + i - 4 < 4) by omega,
    show 8 + i - 4 - 4 = i by omega]

/-- The middle nibble of an address made of nibbles. -/
@[simp] theorem nnnOf_mid (a b c : Nibble) : (nnnOf a b c).extractLsb' 4 4 = b := by
  apply BitVec.eq_of_getLsbD_eq
  intro i hi
  simp only [nnnOf, BitVec.getLsbD_extractLsb', BitVec.getLsbD_append]
  simp [hi]

/-- The low nibble of an address made of nibbles. -/
@[simp] theorem nnnOf_low (a b c : Nibble) : (nnnOf a b c).extractLsb' 0 4 = c := by
  apply BitVec.eq_of_getLsbD_eq
  intro i hi
  simp only [nnnOf, BitVec.getLsbD_extractLsb', BitVec.getLsbD_append]
  simp [hi]

/-- A register number survives its nibble. -/
@[simp] theorem regOf_nibbleOf (r : Reg) : regOf (nibbleOf r) = r := rfl

/-- A nibble survives its register number. -/
@[simp] theorem nibbleOf_regOf (n : Nibble) : nibbleOf (regOf n) = n := rfl

/-- The fixed bits of an opcode, nibble by nibble: a mask of whole nibbles selects whole nibbles. -/
theorem ofNibbles_and (a b c d a' b' c' d' : Nibble) :
    ofNibbles a b c d &&& ofNibbles a' b' c' d' =
      ofNibbles (a &&& a') (b &&& b') (c &&& c') (d &&& d') := by
  apply BitVec.eq_of_getLsbD_eq
  intro i hi
  simp only [ofNibbles, BitVec.getLsbD_and, BitVec.getLsbD_append]
  split
  · rfl
  · split
    · rfl
    · split <;> rfl

/-- The nibble d1 of masked bits. -/
theorem d1_and (op mask : Word) : d1 (op &&& mask) = d1 op &&& d1 mask := by
  rw [← ofNibbles_eta op, ← ofNibbles_eta mask, ofNibbles_and]
  simp

/-- The nibble d2 of masked bits. -/
theorem d2_and (op mask : Word) : d2 (op &&& mask) = d2 op &&& d2 mask := by
  rw [← ofNibbles_eta op, ← ofNibbles_eta mask, ofNibbles_and]
  simp

/-- The nibble d3 of masked bits. -/
theorem d3_and (op mask : Word) : d3 (op &&& mask) = d3 op &&& d3 mask := by
  rw [← ofNibbles_eta op, ← ofNibbles_eta mask, ofNibbles_and]
  simp

/-- The nibble d4 of masked bits. -/
theorem d4_and (op mask : Word) : d4 (op &&& mask) = d4 op &&& d4 mask := by
  rw [← ofNibbles_eta op, ← ofNibbles_eta mask, ofNibbles_and]
  simp

end Sys2Proof
end

