-- ==== Sys2Proof/Laws/State.lean ====
section
/-!
SUPPORT. One lemma per field of State and update, true by rfl, so that no later proof unfolds a
record update.
-/

namespace Sys2Proof.Machine

variable (s : State)

/-! `setReg` -/

@[simp] theorem State.setReg_V (r : Reg) (v : Byte) : (s.setReg r v).V = s.V.set r.val v := rfl
@[simp] theorem State.setReg_I (r : Reg) (v : Byte) : (s.setReg r v).I = s.I := rfl
@[simp] theorem State.setReg_pc (r : Reg) (v : Byte) : (s.setReg r v).pc = s.pc := rfl
@[simp] theorem State.setReg_stack (r : Reg) (v : Byte) : (s.setReg r v).stack = s.stack := rfl
@[simp] theorem State.setReg_sp (r : Reg) (v : Byte) : (s.setReg r v).sp = s.sp := rfl
@[simp] theorem State.setReg_DT (r : Reg) (v : Byte) : (s.setReg r v).DT = s.DT := rfl
@[simp] theorem State.setReg_ST (r : Reg) (v : Byte) : (s.setReg r v).ST = s.ST := rfl
@[simp] theorem State.setReg_key (r : Reg) (v : Byte) : (s.setReg r v).key = s.key := rfl
@[simp] theorem State.setReg_fb (r : Reg) (v : Byte) : (s.setReg r v).fb = s.fb := rfl
@[simp] theorem State.setReg_mem (r : Reg) (v : Byte) : (s.setReg r v).mem = s.mem := rfl
@[simp] theorem State.setReg_run (r : Reg) (v : Byte) : (s.setReg r v).run = s.run := rfl
@[simp] theorem State.setReg_fcause (r : Reg) (v : Byte) : (s.setReg r v).fcause = s.fcause := rfl
@[simp] theorem State.setReg_fpc (r : Reg) (v : Byte) : (s.setReg r v).fpc = s.fpc := rfl
@[simp] theorem State.setReg_fop (r : Reg) (v : Byte) : (s.setReg r v).fop = s.fop := rfl
@[simp] theorem State.setReg_finfo (r : Reg) (v : Byte) : (s.setReg r v).finfo = s.finfo := rfl
@[simp] theorem State.setReg_draws (r : Reg) (v : Byte) : (s.setReg r v).draws = s.draws := rfl

/-! `setVF` -/

@[simp] theorem State.setVF_V (v : Byte) : (s.setVF v).V = s.V.set 15 v := rfl
@[simp] theorem State.setVF_I (v : Byte) : (s.setVF v).I = s.I := rfl
@[simp] theorem State.setVF_pc (v : Byte) : (s.setVF v).pc = s.pc := rfl
@[simp] theorem State.setVF_stack (v : Byte) : (s.setVF v).stack = s.stack := rfl
@[simp] theorem State.setVF_sp (v : Byte) : (s.setVF v).sp = s.sp := rfl
@[simp] theorem State.setVF_DT (v : Byte) : (s.setVF v).DT = s.DT := rfl
@[simp] theorem State.setVF_ST (v : Byte) : (s.setVF v).ST = s.ST := rfl
@[simp] theorem State.setVF_key (v : Byte) : (s.setVF v).key = s.key := rfl
@[simp] theorem State.setVF_fb (v : Byte) : (s.setVF v).fb = s.fb := rfl
@[simp] theorem State.setVF_mem (v : Byte) : (s.setVF v).mem = s.mem := rfl
@[simp] theorem State.setVF_run (v : Byte) : (s.setVF v).run = s.run := rfl
@[simp] theorem State.setVF_fcause (v : Byte) : (s.setVF v).fcause = s.fcause := rfl
@[simp] theorem State.setVF_fpc (v : Byte) : (s.setVF v).fpc = s.fpc := rfl
@[simp] theorem State.setVF_fop (v : Byte) : (s.setVF v).fop = s.fop := rfl
@[simp] theorem State.setVF_finfo (v : Byte) : (s.setVF v).finfo = s.finfo := rfl
@[simp] theorem State.setVF_draws (v : Byte) : (s.setVF v).draws = s.draws := rfl

/-! `setRegs` -/

@[simp] theorem State.setRegs_V (V : RegFile) : (s.setRegs V).V = V := rfl
@[simp] theorem State.setRegs_I (V : RegFile) : (s.setRegs V).I = s.I := rfl
@[simp] theorem State.setRegs_pc (V : RegFile) : (s.setRegs V).pc = s.pc := rfl
@[simp] theorem State.setRegs_stack (V : RegFile) : (s.setRegs V).stack = s.stack := rfl
@[simp] theorem State.setRegs_sp (V : RegFile) : (s.setRegs V).sp = s.sp := rfl
@[simp] theorem State.setRegs_DT (V : RegFile) : (s.setRegs V).DT = s.DT := rfl
@[simp] theorem State.setRegs_ST (V : RegFile) : (s.setRegs V).ST = s.ST := rfl
@[simp] theorem State.setRegs_key (V : RegFile) : (s.setRegs V).key = s.key := rfl
@[simp] theorem State.setRegs_fb (V : RegFile) : (s.setRegs V).fb = s.fb := rfl
@[simp] theorem State.setRegs_mem (V : RegFile) : (s.setRegs V).mem = s.mem := rfl
@[simp] theorem State.setRegs_run (V : RegFile) : (s.setRegs V).run = s.run := rfl
@[simp] theorem State.setRegs_fcause (V : RegFile) : (s.setRegs V).fcause = s.fcause := rfl
@[simp] theorem State.setRegs_fpc (V : RegFile) : (s.setRegs V).fpc = s.fpc := rfl
@[simp] theorem State.setRegs_fop (V : RegFile) : (s.setRegs V).fop = s.fop := rfl
@[simp] theorem State.setRegs_finfo (V : RegFile) : (s.setRegs V).finfo = s.finfo := rfl
@[simp] theorem State.setRegs_draws (V : RegFile) : (s.setRegs V).draws = s.draws := rfl

/-! `setI` -/

@[simp] theorem State.setI_V (v : IndexWord) : (s.setI v).V = s.V := rfl
@[simp] theorem State.setI_I (v : IndexWord) : (s.setI v).I = v := rfl
@[simp] theorem State.setI_pc (v : IndexWord) : (s.setI v).pc = s.pc := rfl
@[simp] theorem State.setI_stack (v : IndexWord) : (s.setI v).stack = s.stack := rfl
@[simp] theorem State.setI_sp (v : IndexWord) : (s.setI v).sp = s.sp := rfl
@[simp] theorem State.setI_DT (v : IndexWord) : (s.setI v).DT = s.DT := rfl
@[simp] theorem State.setI_ST (v : IndexWord) : (s.setI v).ST = s.ST := rfl
@[simp] theorem State.setI_key (v : IndexWord) : (s.setI v).key = s.key := rfl
@[simp] theorem State.setI_fb (v : IndexWord) : (s.setI v).fb = s.fb := rfl
@[simp] theorem State.setI_mem (v : IndexWord) : (s.setI v).mem = s.mem := rfl
@[simp] theorem State.setI_run (v : IndexWord) : (s.setI v).run = s.run := rfl
@[simp] theorem State.setI_fcause (v : IndexWord) : (s.setI v).fcause = s.fcause := rfl
@[simp] theorem State.setI_fpc (v : IndexWord) : (s.setI v).fpc = s.fpc := rfl
@[simp] theorem State.setI_fop (v : IndexWord) : (s.setI v).fop = s.fop := rfl
@[simp] theorem State.setI_finfo (v : IndexWord) : (s.setI v).finfo = s.finfo := rfl
@[simp] theorem State.setI_draws (v : IndexWord) : (s.setI v).draws = s.draws := rfl
@[simp] theorem State.setI_reg (v : IndexWord) (q : Reg) : (s.setI v).reg q = s.reg q := rfl

/-! `setPc` -/

@[simp] theorem State.setPc_V (v : PcWord) : (s.setPc v).V = s.V := rfl
@[simp] theorem State.setPc_I (v : PcWord) : (s.setPc v).I = s.I := rfl
@[simp] theorem State.setPc_pc (v : PcWord) : (s.setPc v).pc = v := rfl
@[simp] theorem State.setPc_stack (v : PcWord) : (s.setPc v).stack = s.stack := rfl
@[simp] theorem State.setPc_sp (v : PcWord) : (s.setPc v).sp = s.sp := rfl
@[simp] theorem State.setPc_DT (v : PcWord) : (s.setPc v).DT = s.DT := rfl
@[simp] theorem State.setPc_ST (v : PcWord) : (s.setPc v).ST = s.ST := rfl
@[simp] theorem State.setPc_key (v : PcWord) : (s.setPc v).key = s.key := rfl
@[simp] theorem State.setPc_fb (v : PcWord) : (s.setPc v).fb = s.fb := rfl
@[simp] theorem State.setPc_mem (v : PcWord) : (s.setPc v).mem = s.mem := rfl
@[simp] theorem State.setPc_run (v : PcWord) : (s.setPc v).run = s.run := rfl
@[simp] theorem State.setPc_fcause (v : PcWord) : (s.setPc v).fcause = s.fcause := rfl
@[simp] theorem State.setPc_fpc (v : PcWord) : (s.setPc v).fpc = s.fpc := rfl
@[simp] theorem State.setPc_fop (v : PcWord) : (s.setPc v).fop = s.fop := rfl
@[simp] theorem State.setPc_finfo (v : PcWord) : (s.setPc v).finfo = s.finfo := rfl
@[simp] theorem State.setPc_draws (v : PcWord) : (s.setPc v).draws = s.draws := rfl
@[simp] theorem State.setPc_reg (v : PcWord) (q : Reg) : (s.setPc v).reg q = s.reg q := rfl

/-! `setSp` -/

@[simp] theorem State.setSp_V (v : StackPtr) : (s.setSp v).V = s.V := rfl
@[simp] theorem State.setSp_I (v : StackPtr) : (s.setSp v).I = s.I := rfl
@[simp] theorem State.setSp_pc (v : StackPtr) : (s.setSp v).pc = s.pc := rfl
@[simp] theorem State.setSp_stack (v : StackPtr) : (s.setSp v).stack = s.stack := rfl
@[simp] theorem State.setSp_sp (v : StackPtr) : (s.setSp v).sp = v := rfl
@[simp] theorem State.setSp_DT (v : StackPtr) : (s.setSp v).DT = s.DT := rfl
@[simp] theorem State.setSp_ST (v : StackPtr) : (s.setSp v).ST = s.ST := rfl
@[simp] theorem State.setSp_key (v : StackPtr) : (s.setSp v).key = s.key := rfl
@[simp] theorem State.setSp_fb (v : StackPtr) : (s.setSp v).fb = s.fb := rfl
@[simp] theorem State.setSp_mem (v : StackPtr) : (s.setSp v).mem = s.mem := rfl
@[simp] theorem State.setSp_run (v : StackPtr) : (s.setSp v).run = s.run := rfl
@[simp] theorem State.setSp_fcause (v : StackPtr) : (s.setSp v).fcause = s.fcause := rfl
@[simp] theorem State.setSp_fpc (v : StackPtr) : (s.setSp v).fpc = s.fpc := rfl
@[simp] theorem State.setSp_fop (v : StackPtr) : (s.setSp v).fop = s.fop := rfl
@[simp] theorem State.setSp_finfo (v : StackPtr) : (s.setSp v).finfo = s.finfo := rfl
@[simp] theorem State.setSp_draws (v : StackPtr) : (s.setSp v).draws = s.draws := rfl
@[simp] theorem State.setSp_reg (v : StackPtr) (q : Reg) : (s.setSp v).reg q = s.reg q := rfl

/-! `setStack` -/

@[simp] theorem State.setStack_V (st : CallStack) : (s.setStack st).V = s.V := rfl
@[simp] theorem State.setStack_I (st : CallStack) : (s.setStack st).I = s.I := rfl
@[simp] theorem State.setStack_pc (st : CallStack) : (s.setStack st).pc = s.pc := rfl
@[simp] theorem State.setStack_stack (st : CallStack) : (s.setStack st).stack = st := rfl
@[simp] theorem State.setStack_sp (st : CallStack) : (s.setStack st).sp = s.sp := rfl
@[simp] theorem State.setStack_DT (st : CallStack) : (s.setStack st).DT = s.DT := rfl
@[simp] theorem State.setStack_ST (st : CallStack) : (s.setStack st).ST = s.ST := rfl
@[simp] theorem State.setStack_key (st : CallStack) : (s.setStack st).key = s.key := rfl
@[simp] theorem State.setStack_fb (st : CallStack) : (s.setStack st).fb = s.fb := rfl
@[simp] theorem State.setStack_mem (st : CallStack) : (s.setStack st).mem = s.mem := rfl
@[simp] theorem State.setStack_run (st : CallStack) : (s.setStack st).run = s.run := rfl
@[simp] theorem State.setStack_fcause (st : CallStack) : (s.setStack st).fcause = s.fcause := rfl
@[simp] theorem State.setStack_fpc (st : CallStack) : (s.setStack st).fpc = s.fpc := rfl
@[simp] theorem State.setStack_fop (st : CallStack) : (s.setStack st).fop = s.fop := rfl
@[simp] theorem State.setStack_finfo (st : CallStack) : (s.setStack st).finfo = s.finfo := rfl
@[simp] theorem State.setStack_draws (st : CallStack) : (s.setStack st).draws = s.draws := rfl
@[simp] theorem State.setStack_reg (st : CallStack) (q : Reg) : (s.setStack st).reg q = s.reg q := rfl

/-! `setDT` -/

@[simp] theorem State.setDT_V (v : Timer) : (s.setDT v).V = s.V := rfl
@[simp] theorem State.setDT_I (v : Timer) : (s.setDT v).I = s.I := rfl
@[simp] theorem State.setDT_pc (v : Timer) : (s.setDT v).pc = s.pc := rfl
@[simp] theorem State.setDT_stack (v : Timer) : (s.setDT v).stack = s.stack := rfl
@[simp] theorem State.setDT_sp (v : Timer) : (s.setDT v).sp = s.sp := rfl
@[simp] theorem State.setDT_DT (v : Timer) : (s.setDT v).DT = v := rfl
@[simp] theorem State.setDT_ST (v : Timer) : (s.setDT v).ST = s.ST := rfl
@[simp] theorem State.setDT_key (v : Timer) : (s.setDT v).key = s.key := rfl
@[simp] theorem State.setDT_fb (v : Timer) : (s.setDT v).fb = s.fb := rfl
@[simp] theorem State.setDT_mem (v : Timer) : (s.setDT v).mem = s.mem := rfl
@[simp] theorem State.setDT_run (v : Timer) : (s.setDT v).run = s.run := rfl
@[simp] theorem State.setDT_fcause (v : Timer) : (s.setDT v).fcause = s.fcause := rfl
@[simp] theorem State.setDT_fpc (v : Timer) : (s.setDT v).fpc = s.fpc := rfl
@[simp] theorem State.setDT_fop (v : Timer) : (s.setDT v).fop = s.fop := rfl
@[simp] theorem State.setDT_finfo (v : Timer) : (s.setDT v).finfo = s.finfo := rfl
@[simp] theorem State.setDT_draws (v : Timer) : (s.setDT v).draws = s.draws := rfl
@[simp] theorem State.setDT_reg (v : Timer) (q : Reg) : (s.setDT v).reg q = s.reg q := rfl

/-! `setST` -/

@[simp] theorem State.setST_V (v : Timer) : (s.setST v).V = s.V := rfl
@[simp] theorem State.setST_I (v : Timer) : (s.setST v).I = s.I := rfl
@[simp] theorem State.setST_pc (v : Timer) : (s.setST v).pc = s.pc := rfl
@[simp] theorem State.setST_stack (v : Timer) : (s.setST v).stack = s.stack := rfl
@[simp] theorem State.setST_sp (v : Timer) : (s.setST v).sp = s.sp := rfl
@[simp] theorem State.setST_DT (v : Timer) : (s.setST v).DT = s.DT := rfl
@[simp] theorem State.setST_ST (v : Timer) : (s.setST v).ST = v := rfl
@[simp] theorem State.setST_key (v : Timer) : (s.setST v).key = s.key := rfl
@[simp] theorem State.setST_fb (v : Timer) : (s.setST v).fb = s.fb := rfl
@[simp] theorem State.setST_mem (v : Timer) : (s.setST v).mem = s.mem := rfl
@[simp] theorem State.setST_run (v : Timer) : (s.setST v).run = s.run := rfl
@[simp] theorem State.setST_fcause (v : Timer) : (s.setST v).fcause = s.fcause := rfl
@[simp] theorem State.setST_fpc (v : Timer) : (s.setST v).fpc = s.fpc := rfl
@[simp] theorem State.setST_fop (v : Timer) : (s.setST v).fop = s.fop := rfl
@[simp] theorem State.setST_finfo (v : Timer) : (s.setST v).finfo = s.finfo := rfl
@[simp] theorem State.setST_draws (v : Timer) : (s.setST v).draws = s.draws := rfl
@[simp] theorem State.setST_reg (v : Timer) (q : Reg) : (s.setST v).reg q = s.reg q := rfl

/-! `setScreen` -/

@[simp] theorem State.setScreen_V (f : Screen) : (s.setScreen f).V = s.V := rfl
@[simp] theorem State.setScreen_I (f : Screen) : (s.setScreen f).I = s.I := rfl
@[simp] theorem State.setScreen_pc (f : Screen) : (s.setScreen f).pc = s.pc := rfl
@[simp] theorem State.setScreen_stack (f : Screen) : (s.setScreen f).stack = s.stack := rfl
@[simp] theorem State.setScreen_sp (f : Screen) : (s.setScreen f).sp = s.sp := rfl
@[simp] theorem State.setScreen_DT (f : Screen) : (s.setScreen f).DT = s.DT := rfl
@[simp] theorem State.setScreen_ST (f : Screen) : (s.setScreen f).ST = s.ST := rfl
@[simp] theorem State.setScreen_key (f : Screen) : (s.setScreen f).key = s.key := rfl
@[simp] theorem State.setScreen_fb (f : Screen) : (s.setScreen f).fb = f := rfl
@[simp] theorem State.setScreen_mem (f : Screen) : (s.setScreen f).mem = s.mem := rfl
@[simp] theorem State.setScreen_run (f : Screen) : (s.setScreen f).run = s.run := rfl
@[simp] theorem State.setScreen_fcause (f : Screen) : (s.setScreen f).fcause = s.fcause := rfl
@[simp] theorem State.setScreen_fpc (f : Screen) : (s.setScreen f).fpc = s.fpc := rfl
@[simp] theorem State.setScreen_fop (f : Screen) : (s.setScreen f).fop = s.fop := rfl
@[simp] theorem State.setScreen_finfo (f : Screen) : (s.setScreen f).finfo = s.finfo := rfl
@[simp] theorem State.setScreen_draws (f : Screen) : (s.setScreen f).draws = s.draws := rfl
@[simp] theorem State.setScreen_reg (f : Screen) (q : Reg) : (s.setScreen f).reg q = s.reg q := rfl

/-! `setMem` -/

@[simp] theorem State.setMem_V (m : Memory) : (s.setMem m).V = s.V := rfl
@[simp] theorem State.setMem_I (m : Memory) : (s.setMem m).I = s.I := rfl
@[simp] theorem State.setMem_pc (m : Memory) : (s.setMem m).pc = s.pc := rfl
@[simp] theorem State.setMem_stack (m : Memory) : (s.setMem m).stack = s.stack := rfl
@[simp] theorem State.setMem_sp (m : Memory) : (s.setMem m).sp = s.sp := rfl
@[simp] theorem State.setMem_DT (m : Memory) : (s.setMem m).DT = s.DT := rfl
@[simp] theorem State.setMem_ST (m : Memory) : (s.setMem m).ST = s.ST := rfl
@[simp] theorem State.setMem_key (m : Memory) : (s.setMem m).key = s.key := rfl
@[simp] theorem State.setMem_fb (m : Memory) : (s.setMem m).fb = s.fb := rfl
@[simp] theorem State.setMem_mem (m : Memory) : (s.setMem m).mem = m := rfl
@[simp] theorem State.setMem_run (m : Memory) : (s.setMem m).run = s.run := rfl
@[simp] theorem State.setMem_fcause (m : Memory) : (s.setMem m).fcause = s.fcause := rfl
@[simp] theorem State.setMem_fpc (m : Memory) : (s.setMem m).fpc = s.fpc := rfl
@[simp] theorem State.setMem_fop (m : Memory) : (s.setMem m).fop = s.fop := rfl
@[simp] theorem State.setMem_finfo (m : Memory) : (s.setMem m).finfo = s.finfo := rfl
@[simp] theorem State.setMem_draws (m : Memory) : (s.setMem m).draws = s.draws := rfl
@[simp] theorem State.setMem_reg (m : Memory) (q : Reg) : (s.setMem m).reg q = s.reg q := rfl

/-! `countDraw` -/

@[simp] theorem State.countDraw_V : s.countDraw.V = s.V := rfl
@[simp] theorem State.countDraw_I : s.countDraw.I = s.I := rfl
@[simp] theorem State.countDraw_pc : s.countDraw.pc = s.pc := rfl
@[simp] theorem State.countDraw_stack : s.countDraw.stack = s.stack := rfl
@[simp] theorem State.countDraw_sp : s.countDraw.sp = s.sp := rfl
@[simp] theorem State.countDraw_DT : s.countDraw.DT = s.DT := rfl
@[simp] theorem State.countDraw_ST : s.countDraw.ST = s.ST := rfl
@[simp] theorem State.countDraw_key : s.countDraw.key = s.key := rfl
@[simp] theorem State.countDraw_fb : s.countDraw.fb = s.fb := rfl
@[simp] theorem State.countDraw_mem : s.countDraw.mem = s.mem := rfl
@[simp] theorem State.countDraw_run : s.countDraw.run = s.run := rfl
@[simp] theorem State.countDraw_fcause : s.countDraw.fcause = s.fcause := rfl
@[simp] theorem State.countDraw_fpc : s.countDraw.fpc = s.fpc := rfl
@[simp] theorem State.countDraw_fop : s.countDraw.fop = s.fop := rfl
@[simp] theorem State.countDraw_finfo : s.countDraw.finfo = s.finfo := rfl
@[simp] theorem State.countDraw_draws : s.countDraw.draws = s.draws + 1 := rfl
@[simp] theorem State.countDraw_reg (q : Reg) : s.countDraw.reg q = s.reg q := rfl

/-! `advance` -/

@[simp] theorem State.advance_V : s.advance.V = s.V := rfl
@[simp] theorem State.advance_I : s.advance.I = s.I := rfl
@[simp] theorem State.advance_pc : s.advance.pc = fetchAddr s + 2 := rfl
@[simp] theorem State.advance_stack : s.advance.stack = s.stack := rfl
@[simp] theorem State.advance_sp : s.advance.sp = s.sp := rfl
@[simp] theorem State.advance_DT : s.advance.DT = s.DT := rfl
@[simp] theorem State.advance_ST : s.advance.ST = s.ST := rfl
@[simp] theorem State.advance_key : s.advance.key = s.key := rfl
@[simp] theorem State.advance_fb : s.advance.fb = s.fb := rfl
@[simp] theorem State.advance_mem : s.advance.mem = s.mem := rfl
@[simp] theorem State.advance_run : s.advance.run = s.run := rfl
@[simp] theorem State.advance_fcause : s.advance.fcause = s.fcause := rfl
@[simp] theorem State.advance_fpc : s.advance.fpc = s.fpc := rfl
@[simp] theorem State.advance_fop : s.advance.fop = s.fop := rfl
@[simp] theorem State.advance_finfo : s.advance.finfo = s.finfo := rfl
@[simp] theorem State.advance_draws : s.advance.draws = s.draws := rfl
@[simp] theorem State.advance_reg (q : Reg) : s.advance.reg q = s.reg q := rfl

/-! `skip` -/

@[simp] theorem State.skip_V : s.skip.V = s.V := rfl
@[simp] theorem State.skip_I : s.skip.I = s.I := rfl
@[simp] theorem State.skip_pc : s.skip.pc = s.pc + 2 := rfl
@[simp] theorem State.skip_stack : s.skip.stack = s.stack := rfl
@[simp] theorem State.skip_sp : s.skip.sp = s.sp := rfl
@[simp] theorem State.skip_DT : s.skip.DT = s.DT := rfl
@[simp] theorem State.skip_ST : s.skip.ST = s.ST := rfl
@[simp] theorem State.skip_key : s.skip.key = s.key := rfl
@[simp] theorem State.skip_fb : s.skip.fb = s.fb := rfl
@[simp] theorem State.skip_mem : s.skip.mem = s.mem := rfl
@[simp] theorem State.skip_run : s.skip.run = s.run := rfl
@[simp] theorem State.skip_fcause : s.skip.fcause = s.fcause := rfl
@[simp] theorem State.skip_fpc : s.skip.fpc = s.fpc := rfl
@[simp] theorem State.skip_fop : s.skip.fop = s.fop := rfl
@[simp] theorem State.skip_finfo : s.skip.finfo = s.finfo := rfl
@[simp] theorem State.skip_draws : s.skip.draws = s.draws := rfl
@[simp] theorem State.skip_reg (q : Reg) : s.skip.reg q = s.reg q := rfl

/-! `timerStage` -/

@[simp] theorem timerStage_V : (timerStage s).V = s.V := rfl
@[simp] theorem timerStage_I : (timerStage s).I = s.I := rfl
@[simp] theorem timerStage_pc : (timerStage s).pc = s.pc := rfl
@[simp] theorem timerStage_stack : (timerStage s).stack = s.stack := rfl
@[simp] theorem timerStage_sp : (timerStage s).sp = s.sp := rfl
@[simp] theorem timerStage_DT : (timerStage s).DT = countDown s.DT := rfl
@[simp] theorem timerStage_ST : (timerStage s).ST = countDown s.ST := rfl
@[simp] theorem timerStage_key : (timerStage s).key = s.key := rfl
@[simp] theorem timerStage_fb : (timerStage s).fb = s.fb := rfl
@[simp] theorem timerStage_mem : (timerStage s).mem = s.mem := rfl
@[simp] theorem timerStage_run : (timerStage s).run = s.run := rfl
@[simp] theorem timerStage_fcause : (timerStage s).fcause = s.fcause := rfl
@[simp] theorem timerStage_fpc : (timerStage s).fpc = s.fpc := rfl
@[simp] theorem timerStage_fop : (timerStage s).fop = s.fop := rfl
@[simp] theorem timerStage_finfo : (timerStage s).finfo = s.finfo := rfl
@[simp] theorem timerStage_draws : (timerStage s).draws = s.draws := rfl
@[simp] theorem timerStage_reg (q : Reg) : (timerStage s).reg q = s.reg q := rfl

/-! `enterFault` -/

@[simp] theorem State.enterFault_V (op : Word) (e : Raise) : (s.enterFault op e).V = s.V := rfl
@[simp] theorem State.enterFault_I (op : Word) (e : Raise) : (s.enterFault op e).I = s.I := rfl
@[simp] theorem State.enterFault_pc (op : Word) (e : Raise) : (s.enterFault op e).pc = s.pc := rfl
@[simp] theorem State.enterFault_stack (op : Word) (e : Raise) : (s.enterFault op e).stack = s.stack := rfl
@[simp] theorem State.enterFault_sp (op : Word) (e : Raise) : (s.enterFault op e).sp = s.sp := rfl
@[simp] theorem State.enterFault_DT (op : Word) (e : Raise) : (s.enterFault op e).DT = s.DT := rfl
@[simp] theorem State.enterFault_ST (op : Word) (e : Raise) : (s.enterFault op e).ST = s.ST := rfl
@[simp] theorem State.enterFault_key (op : Word) (e : Raise) : (s.enterFault op e).key = s.key := rfl
@[simp] theorem State.enterFault_fb (op : Word) (e : Raise) : (s.enterFault op e).fb = s.fb := rfl
@[simp] theorem State.enterFault_mem (op : Word) (e : Raise) : (s.enterFault op e).mem = s.mem := rfl
@[simp] theorem State.enterFault_run (op : Word) (e : Raise) : (s.enterFault op e).run = .faulted := rfl
@[simp] theorem State.enterFault_fcause (op : Word) (e : Raise) : (s.enterFault op e).fcause = e.cause.code := rfl
@[simp] theorem State.enterFault_fpc (op : Word) (e : Raise) : (s.enterFault op e).fpc = fetchAddr s := rfl
@[simp] theorem State.enterFault_fop (op : Word) (e : Raise) : (s.enterFault op e).fop = op := rfl
@[simp] theorem State.enterFault_finfo (op : Word) (e : Raise) : (s.enterFault op e).finfo = e.info := rfl
@[simp] theorem State.enterFault_draws (op : Word) (e : Raise) : (s.enterFault op e).draws = s.draws := rfl
@[simp] theorem State.enterFault_reg (op : Word) (e : Raise) (q : Reg) : (s.enterFault op e).reg q = s.reg q := rfl

/-! `setKey` -/

@[simp] theorem setKey_V (id : Key) (b : Bool) : (setKey id b s).V = s.V := rfl
@[simp] theorem setKey_I (id : Key) (b : Bool) : (setKey id b s).I = s.I := rfl
@[simp] theorem setKey_pc (id : Key) (b : Bool) : (setKey id b s).pc = s.pc := rfl
@[simp] theorem setKey_stack (id : Key) (b : Bool) : (setKey id b s).stack = s.stack := rfl
@[simp] theorem setKey_sp (id : Key) (b : Bool) : (setKey id b s).sp = s.sp := rfl
@[simp] theorem setKey_DT (id : Key) (b : Bool) : (setKey id b s).DT = s.DT := rfl
@[simp] theorem setKey_ST (id : Key) (b : Bool) : (setKey id b s).ST = s.ST := rfl
@[simp] theorem setKey_key (id : Key) (b : Bool) : (setKey id b s).key = s.key.set id.val b := rfl
@[simp] theorem setKey_fb (id : Key) (b : Bool) : (setKey id b s).fb = s.fb := rfl
@[simp] theorem setKey_mem (id : Key) (b : Bool) : (setKey id b s).mem = s.mem := rfl
@[simp] theorem setKey_run (id : Key) (b : Bool) : (setKey id b s).run = s.run := rfl
@[simp] theorem setKey_fcause (id : Key) (b : Bool) : (setKey id b s).fcause = s.fcause := rfl
@[simp] theorem setKey_fpc (id : Key) (b : Bool) : (setKey id b s).fpc = s.fpc := rfl
@[simp] theorem setKey_fop (id : Key) (b : Bool) : (setKey id b s).fop = s.fop := rfl
@[simp] theorem setKey_finfo (id : Key) (b : Bool) : (setKey id b s).finfo = s.finfo := rfl
@[simp] theorem setKey_draws (id : Key) (b : Bool) : (setKey id b s).draws = s.draws := rfl
@[simp] theorem setKey_reg (id : Key) (b : Bool) (q : Reg) : (setKey id b s).reg q = s.reg q := rfl

/-! `skipIf` -/

@[simp] theorem State.skipIf_V (c : Bool) : (s.skipIf c).V = s.V := by cases c <;> rfl
@[simp] theorem State.skipIf_I (c : Bool) : (s.skipIf c).I = s.I := by cases c <;> rfl
@[simp] theorem State.skipIf_pc (c : Bool) :
    (s.skipIf c).pc = if c then s.pc + 2 else s.pc := by cases c <;> rfl
@[simp] theorem State.skipIf_stack (c : Bool) : (s.skipIf c).stack = s.stack := by cases c <;> rfl
@[simp] theorem State.skipIf_sp (c : Bool) : (s.skipIf c).sp = s.sp := by cases c <;> rfl
@[simp] theorem State.skipIf_DT (c : Bool) : (s.skipIf c).DT = s.DT := by cases c <;> rfl
@[simp] theorem State.skipIf_ST (c : Bool) : (s.skipIf c).ST = s.ST := by cases c <;> rfl
@[simp] theorem State.skipIf_key (c : Bool) : (s.skipIf c).key = s.key := by cases c <;> rfl
@[simp] theorem State.skipIf_fb (c : Bool) : (s.skipIf c).fb = s.fb := by cases c <;> rfl
@[simp] theorem State.skipIf_mem (c : Bool) : (s.skipIf c).mem = s.mem := by cases c <;> rfl
@[simp] theorem State.skipIf_run (c : Bool) : (s.skipIf c).run = s.run := by cases c <;> rfl
@[simp] theorem State.skipIf_fcause (c : Bool) : (s.skipIf c).fcause = s.fcause := by cases c <;> rfl
@[simp] theorem State.skipIf_fpc (c : Bool) : (s.skipIf c).fpc = s.fpc := by cases c <;> rfl
@[simp] theorem State.skipIf_fop (c : Bool) : (s.skipIf c).fop = s.fop := by cases c <;> rfl
@[simp] theorem State.skipIf_finfo (c : Bool) : (s.skipIf c).finfo = s.finfo := by cases c <;> rfl
@[simp] theorem State.skipIf_draws (c : Bool) : (s.skipIf c).draws = s.draws := by cases c <;> rfl
@[simp] theorem State.skipIf_reg (c : Bool) (q : Reg) : (s.skipIf c).reg q = s.reg q := by
  cases c <;> rfl

/-! Reading a register after a write -/

/-- A register write is seen in the register written and in no other. -/
@[simp] theorem State.setReg_reg (r : Reg) (v : Byte) (q : Reg) :
    (s.setReg r v).reg q = if q = r then v else s.reg q := by
  simp only [State.reg, State.setReg, Vector.getElem_set, Fin.ext_iff, eq_comm]

/-- A write of VF is a write of register 15. -/
@[simp] theorem State.setVF_reg (v : Byte) (q : Reg) :
    (s.setVF v).reg q = if q = 15 then v else s.reg q := State.setReg_reg s 15 v q

/-- A register of a whole new register file. -/
@[simp] theorem State.setRegs_reg (V : RegFile) (q : Reg) : (s.setRegs V).reg q = V[q.val] := rfl

/-- A register, as an element of the register file. -/
theorem State.reg_eq (q : Reg) : s.reg q = s.V[q.val] := rfl

end Sys2Proof.Machine
end

