-- ==== Sys2Proof/Laws/Memory.lean ====
section
/-!
SUPPORT. The laws of memory: a read after a write, and the canonical form kept by every operation.
-/

namespace Sys2Proof.Machine

/-- Below every listed address a canonical memory reads 0. -/
theorem Memory.read_eq_zero_of_lt {m : Memory} {a : Nat} (h : ∀ c ∈ m, a < c.1) : m.read a = 0 := by
  induction m with
  | nil => rfl
  | cons c m ih =>
    have hc := h c List.mem_cons_self
    rw [Memory.read, if_neg (by omega)]
    exact ih fun d hd => h d (List.mem_cons_of_mem _ hd)

/-- The tail of a canonical memory is canonical. -/
theorem Memory.wf_tail {c : Host.Cell} {m : Memory} (h : Memory.wf (c :: m)) : Memory.wf m :=
  ⟨h.1.tail, fun d hd => h.2 d (List.mem_cons_of_mem _ hd)⟩

/-- The head of a canonical memory lies below its tail. -/
theorem Memory.wf_head_lt {c : Host.Cell} {m : Memory} (h : Memory.wf (c :: m)) :
    ∀ d ∈ m, c.1 < d.1 := (List.pairwise_cons.mp h.1).1

/-- Reading past the first entry. -/
theorem Memory.read_cons (a : Nat) (v : Byte) (m : Memory) (b : Nat) :
    Memory.read ((a, v) :: m) b = if b = a then v else m.read b := by
  by_cases h : b = a
  · rw [Memory.read, if_pos h.symm, if_pos h]
  · rw [Memory.read, if_neg (Ne.symm h), if_neg h]

/-- Writing 0 where a memory already reads 0 changes no byte. -/
theorem Memory.read_of_zero {m : Memory} {a : Nat} {v : Byte} (hv : v = 0) (h : m.read a = 0)
    (b : Nat) : m.read b = if b = a then v else m.read b := by
  by_cases hb : b = a
  · rw [if_pos hb, hb, h, hv]
  · rw [if_neg hb]

/-- A canonical memory reads the byte written at its address and every other byte as before. -/
theorem Memory.read_write {m : Memory} (h : m.wf) (a : Nat) (v : Byte) (b : Nat) :
    (m.write a v).read b = if b = a then v else m.read b := by
  induction m with
  | nil =>
    rw [Memory.write]
    split
    · next hv => exact Memory.read_of_zero hv rfl b
    · exact Memory.read_cons a v [] b
  | cons c m ih =>
    obtain ⟨k, w⟩ := c
    have hlt := Memory.wf_head_lt h
    have below : ∀ a, a ≤ k → Memory.read m a = 0 := fun a ha =>
      Memory.read_eq_zero_of_lt fun d hd => Nat.lt_of_le_of_lt ha (hlt d hd)
    rw [Memory.write]
    split
    · next hak =>
      split
      · next hv =>
        refine Memory.read_of_zero hv ?_ b
        rw [Memory.read_cons, if_neg (by omega), below a (by omega)]
      · exact Memory.read_cons a v _ b
    · split
      · next hak =>
        subst hak
        split
        · next hv =>
          rw [Memory.read_cons, Memory.read_of_zero hv (below a (Nat.le_refl a))]
          by_cases hb : b = a <;> simp only [hb, if_true, if_false]
        · rw [Memory.read_cons, Memory.read_cons]
          by_cases hb : b = a <;> simp only [hb, if_true, if_false]
      · next hak hne =>
        rw [Memory.read_cons, Memory.read_cons, ih (Memory.wf_tail h)]
        by_cases hk : b = k
        · rw [if_pos hk, if_pos hk, if_neg (by omega)]
        · rw [if_neg hk, if_neg hk]

/-- Every address of a written memory was listed before or is the one written. -/
theorem Memory.mem_write {m : Memory} {a : Nat} {v : Byte} {c : Host.Cell}
    (h : c ∈ m.write a v) : c = (a, v) ∧ v ≠ 0 ∨ c ∈ m := by
  induction m with
  | nil =>
    rw [Memory.write] at h
    split at h
    · cases h
    · simp_all
  | cons d m ih =>
    obtain ⟨k, w⟩ := d
    rw [Memory.write] at h
    split at h
    · split at h
      · exact .inr h
      · rcases List.mem_cons.mp h with h | h
        · exact .inl ⟨h, ‹_›⟩
        · exact .inr h
    · split at h
      · split at h
        · exact .inr (List.mem_cons_of_mem _ h)
        · rcases List.mem_cons.mp h with h | h
          · exact .inl ⟨h, ‹_›⟩
          · exact .inr (List.mem_cons_of_mem _ h)
      · rcases List.mem_cons.mp h with h | h
        · exact .inr (h ▸ List.mem_cons_self)
        · exact (ih h).imp_right (List.mem_cons_of_mem _)

/-- A write keeps the canonical form. -/
theorem Memory.write_wf {m : Memory} (h : m.wf) {a : Nat} (ha : a < Config.memSize) (v : Byte) :
    (m.write a v).wf := by
  refine ⟨?_, fun c hc => ?_⟩
  · induction m with
    | nil =>
      rw [Memory.write]
      split <;> simp
    | cons d m ih =>
      obtain ⟨k, w⟩ := d
      have hlt := Memory.wf_head_lt h
      have ih := ih (Memory.wf_tail h)
      rw [Memory.write]
      split
      · next hak =>
        split
        · exact h.1
        · refine List.pairwise_cons.mpr ⟨fun c hc => ?_, h.1⟩
          rcases List.mem_cons.mp hc with rfl | hc
          · exact hak
          · exact Nat.lt_trans hak (hlt c hc)
      · split
        · next hak =>
          subst hak
          split
          · exact h.1.tail
          · exact List.pairwise_cons.mpr ⟨hlt, h.1.tail⟩
        · next hlt' hne =>
          refine List.pairwise_cons.mpr ⟨fun c hc => ?_, ih⟩
          rcases Memory.mem_write hc with ⟨rfl, -⟩ | hc
          · show k < a
            omega
          · exact hlt c hc
  · rcases Memory.mem_write hc with ⟨rfl, hv⟩ | hc
    · exact ⟨ha, hv⟩
    · exact h.2 c hc

/-- Copying bytes upward keeps the canonical form. -/
theorem Memory.fill_wf {m : Memory} (h : m.wf) (a : Nat) (bs : List Byte)
    (ha : a + bs.length ≤ Config.memSize) : (m.fill a bs).wf := by
  induction bs generalizing m a with
  | nil => exact h
  | cons b bs ih =>
    rw [List.length_cons] at ha
    exact ih (Memory.write_wf h (by omega) b) (a + 1) (by omega)

/-- Copied bytes stand at ascending addresses; every other byte is as before. -/
theorem Memory.read_fill {m : Memory} (h : m.wf) (a : Nat) (bs : List Byte)
    (ha : a + bs.length ≤ Config.memSize) (b : Nat) :
    (m.fill a bs).read b = if a ≤ b ∧ b < a + bs.length then bs.getD (b - a) 0 else m.read b := by
  induction bs generalizing m a with
  | nil => rw [Memory.fill, if_neg (by simp)]
  | cons v bs ih =>
    rw [List.length_cons] at ha ⊢
    rw [Memory.fill, ih (Memory.write_wf h (by omega) v) (a + 1) (by omega), Memory.read_write h]
    by_cases h1 : a + 1 ≤ b ∧ b < a + 1 + bs.length
    · obtain ⟨k, rfl⟩ : ∃ k, b = a + 1 + k := ⟨b - (a + 1), by omega⟩
      rw [if_pos h1, if_pos (by omega), show a + 1 + k - a = k + 1 by omega,
        show a + 1 + k - (a + 1) = k by omega, List.getD_cons_succ]
    · rw [if_neg h1]
      by_cases h2 : b = a
      · subst h2
        rw [if_pos rfl, if_pos (by omega), Nat.sub_self, List.getD_cons_zero]
      · rw [if_neg h2, if_neg (by omega)]

end Sys2Proof.Machine
end

