-- ==== Sys2Proof/Laws/Ops.lean ====
section
/-!
SUPPORT. One lemma per shared operation: what the block accesses, the fetch, the fault entry and the
step can answer.  Callers cite these and do not unfold the operation.
-/

namespace Sys2Proof.Machine

/-- A block read inside memory gives the bytes at the ascending addresses. -/
theorem readBytes_ok (s : State) (addr n : Nat) (h : n = 0 ∨ addr + n ≤ Config.memSize) :
    readBytes s addr n = .ok ((List.range n).map fun k => s.mem.read (addr + k)) := by
  induction n generalizing addr with
  | zero => rfl
  | succ n ih =>
    have h1 : addr < Config.memSize := by omega
    rw [readBytes, memRead, if_pos h1, ih (addr + 1) (by omega), List.range_succ_eq_map]
    simp only [List.map_cons, List.map_map, Nat.add_zero]
    congr 2
    apply List.map_congr_left
    intro k _
    show s.mem.read (addr + 1 + k) = s.mem.read (addr + (k + 1))
    congr 1
    omega

/-- A block read that reaches outside memory raises the read fault at the first such address. -/
theorem readBytes_error (s : State) (addr n : Nat) (hn : 0 < n) (h : Config.memSize < addr + n) :
    readBytes s addr n = .error ⟨.memReadOutOfRange, BitVec.ofNat 16 (max addr Config.memSize)⟩ := by
  induction n generalizing addr with
  | zero => omega
  | succ n ih =>
    rw [readBytes, memRead]
    by_cases h1 : addr < Config.memSize
    · rw [if_pos h1, ih (addr + 1) (by omega) (by omega)]
      rw [show max (addr + 1) Config.memSize = max addr Config.memSize by omega]
    · rw [if_neg h1, show max addr Config.memSize = addr by omega]

/-- A block write inside memory copies the bytes to the ascending addresses and changes nothing
else. -/
theorem writeBytes_ok (s : State) (addr : Nat) (bs : List Byte)
    (h : bs = [] ∨ addr + bs.length ≤ Config.memSize) :
    writeBytes s addr bs = .ok (s.setMem (s.mem.fill addr bs)) := by
  induction bs generalizing s addr with
  | nil => rfl
  | cons b bs ih =>
    rw [List.length_cons] at h
    have h' : addr + (bs.length + 1) ≤ Config.memSize := h.resolve_left (by simp)
    rw [writeBytes, memWrite, if_pos (by omega)]
    exact ih _ _ (.inr (by omega))

/-- A block write that reaches outside memory raises the write fault at the first such address. -/
theorem writeBytes_error (s : State) (addr : Nat) (bs : List Byte) (hb : bs ≠ [])
    (h : Config.memSize < addr + bs.length) :
    writeBytes s addr bs =
      .error ⟨.memWriteOutOfRange, BitVec.ofNat 16 (max addr Config.memSize)⟩ := by
  induction bs generalizing s addr with
  | nil => exact absurd rfl hb
  | cons b bs ih =>
    rw [List.length_cons] at h
    rw [writeBytes, memWrite]
    by_cases h1 : addr < Config.memSize
    · rw [if_pos h1]
      have hne : bs ≠ [] := by
        rintro rfl
        rw [List.length_nil] at h
        omega
      rw [← show max (addr + 1) Config.memSize = max addr Config.memSize by omega]
      exact ih _ _ hne (by omega)
    · rw [if_neg h1, show max addr Config.memSize = addr by omega]

/-- An execute stage that completes gives its working copy. -/
@[simp] theorem settle_ok (i : Instr) (s t : State) : settle i s (.ok t) = .next t := rfl

/-- An execute stage that raises gives the fault entry. -/
@[simp] theorem settle_error (i : Instr) (s : State) (e : Raise) :
    settle i s (.error e) = .next (s.enterFault (encode i) e) := rfl

/-- Raising a fault gives the fault entry. -/
@[simp] theorem raiseFault_eq (i : Instr) (s : State) (e : Raise) :
    raiseFault i s e = .next (s.enterFault (encode i) e) := rfl

/-- What a retired instruction can answer. -/
theorem retire_cases {o : Out} {t : State} (h : retire o = .next t) :
    ∃ u, o = .next u ∧
      ((u.run = .faulted ∧ t = u) ∨ (u.run = .running ∧ t = timerStage u)) := by
  cases o with
  | next u =>
    refine ⟨u, rfl, ?_⟩
    cases hu : u.run <;> simp_all [retire]
  | fault f => cases h
  | refused r => cases h

/-- What a step can answer: nothing in the faulted state, the fetch fault, the no-op, or the decoded
instruction retired. -/
theorem step_cases {s t : State} (h : step s = .next t) :
    (s.run = .faulted ∧ t = s) ∨
    (∃ e, s.run = .running ∧ fetch s = .error e ∧ t = s.enterFault 0 e) ∨
    (∃ op, s.run = .running ∧ fetch s = .ok op ∧ decodeWord op = none ∧
      t = timerStage s.advance) ∨
    (∃ op i, s.run = .running ∧ fetch s = .ok op ∧ decodeWord op = some i ∧
      retire (exec i s) = .next t) := by
  unfold step at h
  split at h
  · next hr => exact .inl ⟨hr, by cases h; rfl⟩
  · next hr =>
    split at h
    · next e he => exact .inr (.inl ⟨e, hr, he, by cases h; rfl⟩)
    · next op hop =>
      split at h
      · next hd => exact .inr (.inr (.inl ⟨op, hr, hop, hd, by cases h; rfl⟩))
      · next i hd => exact .inr (.inr (.inr ⟨op, i, hr, hop, hd, h⟩))

/-- What a fetch can raise: the fetch fault at the fetch address. -/
theorem fetch_error {s : State} {e : Raise} (h : fetch s = .error e) :
    e = ⟨.fetchOutOfRange, fetchAddr s⟩ ∧ Config.memSize ≤ (fetchAddr s).toNat + 1 := by
  unfold fetch at h
  split at h
  · cases h
  · cases h
    exact ⟨rfl, by omega⟩

/-- What a fetch can answer: the two bytes at the fetch address, which lies inside memory. -/
theorem fetch_ok {s : State} {op : Word} (h : fetch s = .ok op) :
    (fetchAddr s).toNat + 1 < Config.memSize ∧
      op = wordOfBytes (s.mem.read (fetchAddr s).toNat) (s.mem.read ((fetchAddr s).toNat + 1)) := by
  unfold fetch at h
  split at h
  · cases h
    exact ⟨‹_›, rfl⟩
  · cases h

/-- A key index inside the keypad reads its slot. -/
theorem keyAt_ok (s : State) (k : Byte) (h : k.toNat < 16) : keyAt s k = .ok s.key[k.toNat] := by
  rw [keyAt, dif_pos h]

/-- A key index above 15 raises the key fault. -/
theorem keyAt_error (s : State) (k : Byte) (h : 15 < k.toNat) :
    keyAt s k = .error ⟨.keyIndexOutOfRange, k.zext⟩ := by
  rw [keyAt, dif_neg (by omega)]

/-- The register block holds V0 to Vx. -/
theorem regBlock_length (V : RegFile) (x : Reg) : (regBlock V x).length = x.val + 1 := by
  simp [regBlock]

/-- The k-th byte of the register block is V[k]. -/
theorem regBlock_getD (V : RegFile) (x k : Reg) (h : k ≤ x) : (regBlock V x).getD k.val 0 = V[k.val] := by
  have hk : k.val < x.val + 1 := Nat.lt_succ_of_le h
  simp [regBlock, hk]

/-- A loaded register file: the byte loaded where there is one, else the register as before. -/
theorem loadBlock_get (V : RegFile) (bs : List Byte) (r : Reg) :
    (loadBlock V bs)[r.val] = bs.getD r.val V[r.val] := by
  simp [loadBlock]

/-- The lowest pressed key is pressed and no lower key is. -/
theorem lowestKey_some {key : Keypad} {k : Key} (h : lowestKey key = some k) :
    key[k.val] = true ∧ ∀ j : Key, j < k → key[j.val] = false := by
  rw [lowestKey, List.find?_eq_some_iff_getElem] at h
  obtain ⟨hk, i, hi, hik, hlow⟩ := h
  refine ⟨hk, fun j hj => ?_⟩
  have hik : i = k.val := by simpa using congrArg Fin.val hik
  have hji : j.val < i := by
    rw [hik]
    exact hj
  simpa using hlow j.val hji

/-- No key is lowest exactly when none is pressed. -/
theorem lowestKey_none {key : Keypad} : lowestKey key = none ↔ ∀ j : Key, key[j.val] = false := by
  simp [lowestKey, List.find?_eq_none]

end Sys2Proof.Machine
end

