-- ==== Sys2Proof/Laws/Display.lean ====
section
/-!
SUPPORT. What drawing a sprite does to each pixel and to the collision flag, proved from the loop of
spec/44_display.md R192.
-/

namespace Sys2Proof.Machine

/-- A place outside the framebuffer reads off. -/
theorem pix_off {f : Screen} {x y : Nat} (h : ¬(x < 64 ∧ y < 32)) : pix f x y = false := by
  rw [pix, dif_neg h]

/-- Every pixel of the blank screen is off. -/
@[simp] theorem pix_blankScreen (x y : Nat) : pix blankScreen x y = false := by
  unfold pix blankScreen
  split <;> simp

/-- A flip toggles its own pixel, if it is on the screen, and no other. -/
theorem pix_flipPix (f : Screen) (x y px py : Nat) :
    pix (flipPix f x y) px py =
      (pix f px py ^^ decide (px < 64 ∧ py < 32 ∧ px = x ∧ py = y)) := by
  by_cases h : x < 64 ∧ y < 32
  · rw [flipPix, dif_pos h]
    by_cases hp : px < 64 ∧ py < 32
    · simp only [pix, dif_pos hp, Vector.getElem_set]
      by_cases hy : y = py
      · subst hy
        by_cases hx : x = px
        · subst hx
          simp [h]
        · simp [hx, Ne.symm hx]
      · simp [hy, Ne.symm hy]
    · rw [pix_off hp, pix_off hp]
      have : ¬(px < 64 ∧ py < 32 ∧ px = x ∧ py = y) := fun e => hp ⟨e.1, e.2.1⟩
      simp [this]
  · rw [flipPix, dif_neg h]
    have : ¬(px < 64 ∧ py < 32 ∧ px = x ∧ py = y) := by
      rintro ⟨hx, hy, rfl, rfl⟩
      exact h ⟨hx, hy⟩
    simp [this]

/-- The pixels that the columns `cs` of one sprite row cover on the screen. -/
def rowCovers (b : Byte) (x y : Nat) (cs : List Nat) (px py : Nat) : Bool :=
  decide (px < 64 ∧ py < 32 ∧ py = y) && cs.any fun c => spriteBit b c && decide (px = x + c)

/-- A pixel after one row: toggled when the row covers it. -/
theorem pix_drawRow (d : Drawing) (b : Byte) (x y : Nat) (cs : List Nat) (hcs : cs.Nodup)
    (px py : Nat) :
    pix (drawRow d b x y cs).screen px py = (pix d.screen px py ^^ rowCovers b x y cs px py) := by
  induction cs generalizing d with
  | nil => simp [drawRow, rowCovers]
  | cons c cs ih =>
    obtain ⟨hc, hcs⟩ := List.nodup_cons.mp hcs
    rw [drawRow, ih _ hcs]
    by_cases hb : spriteBit b c
    · simp only [hb, if_true, plot, pix_flipPix, rowCovers, List.any_cons, Bool.true_and]
      by_cases hx : px = x + c
      · have hno : (cs.any fun c => spriteBit b c && decide (px = x + c)) = false := by
          simp only [List.any_eq_false]
          intro k hk
          have : px ≠ x + k := by
            rintro rfl
            exact hc (by rwa [show c = k by omega])
          simp [this]
        rw [hno]
        simp [hx]
      · simp [hx]
    · simp [hb, rowCovers]

/-- A row collides when it covers a pixel that was on. -/
theorem hit_drawRow (d : Drawing) (b : Byte) (x y : Nat) (cs : List Nat) (hcs : cs.Nodup) :
    (drawRow d b x y cs).hit = true ↔
      d.hit = true ∨ ∃ px py, pix d.screen px py = true ∧ rowCovers b x y cs px py = true := by
  induction cs generalizing d with
  | nil => simp [drawRow, rowCovers]
  | cons c cs ih =>
    obtain ⟨hc, hcs⟩ := List.nodup_cons.mp hcs
    rw [drawRow, ih _ hcs]
    by_cases hb : spriteBit b c
    · simp only [hb, if_true, plot, Bool.or_eq_true, pix_flipPix]
      constructor
      · rintro ((h | h) | ⟨px, py, hp, hr⟩)
        · exact .inl h
        · refine .inr ⟨x + c, y, h, ?_⟩
          have hon : x + c < 64 ∧ y < 32 := by
            by_contra hn
            rw [pix_off hn] at h
            cases h
          simp [rowCovers, hb, hon]
        · have hne : ¬(px < 64 ∧ py < 32 ∧ px = x + c ∧ py = y) := by
            rintro ⟨-, -, rfl, rfl⟩
            simp only [rowCovers, Bool.and_eq_true, List.any_eq_true, decide_eq_true_eq] at hr
            obtain ⟨-, k, hk, -, hxk⟩ := hr
            exact hc (by rwa [show c = k by omega])
          refine .inr ⟨px, py, by simpa [hne] using hp, ?_⟩
          simp only [rowCovers, List.any_cons, Bool.and_eq_true, Bool.or_eq_true] at hr ⊢
          exact ⟨hr.1, .inr hr.2⟩
      · rintro (h | ⟨px, py, hp, hr⟩)
        · exact .inl (.inl h)
        · simp only [rowCovers, List.any_cons, Bool.and_eq_true, Bool.or_eq_true,
            decide_eq_true_eq] at hr
          obtain ⟨⟨hpx, hpy, rfl⟩, ⟨-, rfl⟩ | hr⟩ := hr
          · exact .inl (.inr hp)
          · by_cases hx : px = x + c
            · subst hx
              exact .inl (.inr hp)
            · refine .inr ⟨px, py, by simpa [hx] using hp, ?_⟩
              simp only [rowCovers, hpx, hpy, and_self, decide_true, Bool.true_and]
              exact hr
    · simp [hb, rowCovers]

/-- The pixels a list of sprite bytes covers, drawn at (x, y), on the screen or not. -/
def bytesCover (bs : List Byte) (x y px py : Nat) : Bool :=
  decide (x ≤ px ∧ px < x + 8 ∧ y ≤ py ∧ py < y + bs.length) &&
    (bs.getD (py - y) 0).getLsbD (7 - (px - x))

/-- The eight columns of a row cover the pixels of its byte. -/
theorem rowCovers_eight (b : Byte) (x y px py : Nat) :
    rowCovers b x y [0, 1, 2, 3, 4, 5, 6, 7] px py =
      (decide (px < 64 ∧ py < 32) && decide (x ≤ px ∧ px < x + 8 ∧ py = y) &&
        b.getLsbD (7 - (px - x))) := by
  by_cases hx : x ≤ px ∧ px < x + 8
  · obtain ⟨k, rfl⟩ : ∃ k, px = x + k := ⟨px - x, by omega⟩
    have hk : k < 8 := by omega
    by_cases hy : py = y
    · by_cases h64 : x + k < 64 ∧ py < 32
      · have : ∀ k < 8, ([0, 1, 2, 3, 4, 5, 6, 7].any fun c =>
            spriteBit b c && decide (x + k = x + c)) = b.getLsbD (7 - k) := by
          intro k hk
          interval_cases k <;> simp [spriteBit]
        rw [rowCovers, this k hk]
        subst hy
        simp [h64, hk]
      · have h64' : ¬(x + k < 64 ∧ py < 32 ∧ py = y) := fun e => h64 ⟨e.1, e.2.1⟩
        simp only [rowCovers, h64, h64', decide_false, Bool.false_and]
    · simp [rowCovers, hy]
  · have h1 : ([0, 1, 2, 3, 4, 5, 6, 7].any fun c => spriteBit b c && decide (px = x + c)) = false := by
      simp only [List.any_eq_false, Bool.and_eq_true, decide_eq_true_eq, not_and]
      intro c hc _ he
      have : c < 8 := by
        simp only [List.mem_cons, List.not_mem_nil, or_false] at hc
        omega
      omega
    have h2 : ¬(x ≤ px ∧ px < x + 8 ∧ py = y) := fun e => hx ⟨e.1, e.2.1⟩
    rw [rowCovers, h1]
    simp [h2]

/-- The first row and the rows after it cover what the whole sprite covers. -/
theorem bytesCover_cons (b : Byte) (bs : List Byte) (x y px py : Nat) :
    bytesCover (b :: bs) x y px py =
      ((decide (x ≤ px ∧ px < x + 8 ∧ py = y) && b.getLsbD (7 - (px - x))) ^^
        bytesCover bs x (y + 1) px py) := by
  simp only [bytesCover, List.length_cons]
  by_cases hx : x ≤ px ∧ px < x + 8
  · by_cases hy : py = y
    · subst hy
      simp [hx]
    · by_cases hle : y + 1 ≤ py
      · obtain ⟨k, rfl⟩ : ∃ k, py = y + 1 + k := ⟨py - (y + 1), by omega⟩
        rw [show y + 1 + k - y = k + 1 by omega, List.getD_cons_succ,
          show y + 1 + k - (y + 1) = k by omega]
        have e1 : y ≤ y + 1 + k ∧ y + 1 + k < y + (bs.length + 1) ↔ k < bs.length := by omega
        simp [hx, hy, e1]
      · have h1 : ¬(y ≤ py) := by omega
        simp [hy, hle, h1]
  · have h1 : ∀ P : Prop, ¬(x ≤ px ∧ px < x + 8 ∧ P) := fun P e => hx ⟨e.1, e.2.1⟩
    simp [h1]

/-- A pixel after the whole sprite: toggled when it is on the screen and covered. -/
theorem pix_drawRows (d : Drawing) (x y : Nat) (bs : List Byte) (px py : Nat) :
    pix (drawRows d x y bs).screen px py =
      (pix d.screen px py ^^ (decide (px < 64 ∧ py < 32) && bytesCover bs x y px py)) := by
  induction bs generalizing d y with
  | nil =>
    have : ¬(y ≤ py ∧ py < y) := by omega
    simp [drawRows, bytesCover, this]
  | cons b bs ih =>
    rw [drawRows, ih, pix_drawRow _ _ _ _ _ (by decide), rowCovers_eight, bytesCover_cons]
    by_cases h : px < 64 ∧ py < 32 <;> simp [h]

/-- A sprite collides when it covers a pixel that was on. -/
theorem hit_drawRows (d : Drawing) (x y : Nat) (bs : List Byte) :
    (drawRows d x y bs).hit = true ↔
      d.hit = true ∨ ∃ px py, pix d.screen px py = true ∧ bytesCover bs x y px py = true := by
  induction bs generalizing d y with
  | nil =>
    have : ∀ py, ¬(y ≤ py ∧ py < y) := fun py => by omega
    simp [drawRows, bytesCover, this]
  | cons b bs ih =>
    rw [drawRows, ih, hit_drawRow _ _ _ _ _ (by decide), or_assoc]
    simp only [pix_drawRow _ _ _ _ _ (show [0, 1, 2, 3, 4, 5, 6, 7].Nodup by decide),
      rowCovers_eight]
    refine or_congr_right ?_
    constructor
    · rintro (⟨px, py, hp, hc⟩ | ⟨px, py, hp, hc⟩)
      · simp only [Bool.and_eq_true, decide_eq_true_eq] at hc
        have hno : bytesCover bs x (y + 1) px py = false := by
          simp [bytesCover, show ¬(y + 1 ≤ py) by omega]
        exact ⟨px, py, hp, by rw [bytesCover_cons, hno]; simp [hc]⟩
      · have hy : ¬(py = y) := by
          simp only [bytesCover, Bool.and_eq_true, decide_eq_true_eq] at hc
          omega
        refine ⟨px, py, by simpa [hy] using hp, ?_⟩
        rw [bytesCover_cons, hc]
        simp [hy]
    · rintro ⟨px, py, hp, hc⟩
      have hon : px < 64 ∧ py < 32 := by
        by_contra hn
        rw [pix_off hn] at hp
        cases hp
      by_cases hy : py = y
      · refine .inl ⟨px, py, hp, ?_⟩
        have hno : bytesCover bs x (y + 1) px py = false := by
          simp [bytesCover, show ¬(y + 1 ≤ py) by omega]
        rw [bytesCover_cons, hno] at hc
        simpa [hon] using hc
      · refine .inr ⟨px, py, by simpa [hy] using hp, ?_⟩
        rw [bytesCover_cons] at hc
        simpa [hy] using hc

end Sys2Proof.Machine
end

