-- ==== Sys2Proof/Laws/Exec.lean ====
section
/-!
SUPPORT. What any instruction can answer, said once: its own fault entry, or a next state with the run
state and the fault record as they were.
-/

namespace Sys2Proof.Machine

/-- What a block read can answer: the bytes, or the read fault and nothing else. -/
theorem readBytes_cases (s : State) (addr n : Nat) :
    (readBytes s addr n = .ok ((List.range n).map fun k => s.mem.read (addr + k)) ∧
      (n = 0 ∨ addr + n ≤ Config.memSize)) ∨
    ∃ e, readBytes s addr n = .error e ∧ Config.memSize < addr + n ∧
      e.cause = .memReadOutOfRange := by
  by_cases h : n = 0 ∨ addr + n ≤ Config.memSize
  · exact .inl ⟨readBytes_ok s addr n h, h⟩
  · exact .inr ⟨_, readBytes_error s addr n (by omega) (by omega), by omega, rfl⟩

/-- What a block write can answer: the bytes copied, or the write fault and nothing else. -/
theorem writeBytes_cases (s : State) (addr : Nat) (bs : List Byte) :
    (writeBytes s addr bs = .ok (s.setMem (s.mem.fill addr bs)) ∧
      (bs = [] ∨ addr + bs.length ≤ Config.memSize)) ∨
    ∃ e, writeBytes s addr bs = .error e ∧ e.cause = .memWriteOutOfRange := by
  by_cases h : bs = [] ∨ addr + bs.length ≤ Config.memSize
  · exact .inl ⟨writeBytes_ok s addr bs h, h⟩
  · rw [not_or] at h
    exact .inr ⟨_, writeBytes_error s addr bs h.1 (by omega), rfl⟩

/-- What a key read can answer: the slot, or the key fault. -/
theorem keyAt_cases (s : State) (k : Byte) :
    (∃ h : k.toNat < 16, keyAt s k = .ok s.key[k.toNat]) ∨
    ∃ e, keyAt s k = .error e ∧ e.cause = .keyIndexOutOfRange := by
  by_cases h : k.toNat < 16
  · exact .inl ⟨h, keyAt_ok s k h⟩
  · exact .inr ⟨_, keyAt_error s k (by omega), rfl⟩

/-- A next state of an instruction is its fault entry, whose cause is not the fetch fault, or has the
run state and the fault record of the state before. -/
theorem exec_cases {i : Instr} {s t : State} (h : exec i s = .next t) :
    (∃ e, t = s.enterFault (encode i) e ∧ e.cause ≠ .fetchOutOfRange) ∨
    Part.fault.same s t := by
  cases i
  case ret =>
    simp only [exec, execRet] at h
    split at h
    · cases h
      exact .inl ⟨_, rfl, by simp⟩
    · split at h
      · cases h
        exact .inr (by simp [Part.same])
      · cases h
  case call =>
    simp only [exec, execCall] at h
    split at h
    · cases h
      exact .inl ⟨_, rfl, by simp⟩
    · split at h
      · cases h
        exact .inr (by simp [Part.same])
      · cases h
  case ldBVx x =>
    simp only [exec, execLdBVx] at h
    rcases writeBytes_cases s.advance (indexAddr s) (bcdDigits (s.reg x)) with ⟨e, -⟩ | ⟨e, he, hc⟩
    · rw [e] at h
      cases h
      exact .inr (by simp [Part.same])
    · rw [he] at h
      cases h
      exact .inl ⟨_, rfl, by simp [hc]⟩
  case stRegs x =>
    simp only [exec, execStRegs] at h
    rcases writeBytes_cases s.advance (indexAddr s) (regBlock s.V x) with ⟨e, -⟩ | ⟨e, he, hc⟩
    · rw [e] at h
      cases h
      exact .inr (by simp [Part.same])
    · rw [he] at h
      cases h
      exact .inl ⟨_, rfl, by simp [hc]⟩
  case ldRegs x =>
    simp only [exec, execLdRegs] at h
    rcases readBytes_cases s.advance (indexAddr s) (x.val + 1) with ⟨e, -⟩ | ⟨e, he, -, hc⟩
    · rw [e] at h
      cases h
      exact .inr (by simp [Part.same])
    · rw [he] at h
      cases h
      exact .inl ⟨_, rfl, by simp [hc]⟩
  case drw x y n =>
    simp only [exec, execDrw] at h
    rcases readBytes_cases s.advance (indexAddr s) n.toNat with ⟨e, -⟩ | ⟨e, he, -, hc⟩
    · rw [e] at h
      cases h
      exact .inr (by simp [Part.same, drawSprite])
    · rw [he] at h
      cases h
      exact .inl ⟨_, rfl, by simp [hc]⟩
  case skp x =>
    simp only [exec, execSkp] at h
    rcases keyAt_cases s (s.reg x) with ⟨_, e⟩ | ⟨e, he, hc⟩
    · rw [e] at h
      cases h
      exact .inr (by simp [Part.same])
    · rw [he] at h
      cases h
      exact .inl ⟨_, rfl, by simp [hc]⟩
  case sknp x =>
    simp only [exec, execSknp] at h
    rcases keyAt_cases s (s.reg x) with ⟨_, e⟩ | ⟨e, he, hc⟩
    · rw [e] at h
      cases h
      exact .inr (by simp [Part.same])
    · rw [he] at h
      cases h
      exact .inl ⟨_, rfl, by simp [hc]⟩
  case ldVxK x =>
    simp only [exec, execLdVxK] at h
    split at h <;> cases h <;> exact .inr (by simp [Part.same])
  all_goals
    cases h
    exact .inr (by simp [Part.same, writeCarry, writeFlagged, flagThenResult, flagThenReread,
      vfReading, Config.defaultVfReading])

/-- The code of a cause is one of 1 to 6, and 1 only for the fetch fault (60_exceptions.md R231). -/
theorem Cause.code_range (c : Cause) :
    1 ≤ c.code.toNat ∧ c.code.toNat ≤ 6 ∧ (c.code = 1 → c = .fetchOutOfRange) := by
  cases c <;> decide

/-- A timer's count as a number: truncated subtraction. -/
theorem countDown_toNat (t : Byte) : (countDown t).toNat = t.toNat - 1 := by
  by_cases h : t = 0
  · subst h
    rfl
  · have h0 : t.toNat ≠ 0 := fun e => h (BitVec.eq_of_toNat_eq e)
    rw [countDown, if_neg h, BitVec.toNat_sub]
    simp
    omega

/-- A run of the host's core whose first step answers a next state goes on from there. -/
theorem run_of_step (k : Nat) {s t : State} (h : step s = .next t) :
    Host.Core.run Sys2Proof.core (k + 1) s = Host.Core.run Sys2Proof.core k t := by
  have e : Host.Core.step Sys2Proof.core s = .next t := h
  simp only [Host.Core.run, e]

end Sys2Proof.Machine
end

