-- ==== Sys2Proof/Laws/PerInstr.lean ====
section
/-!
SUPPORT. One statement about every instruction as syntax, one lemma per constructor: its operands fit
their fields (spec/30_encoding.md R72, R73) and its opcode has the fixed bits of its row of R76.
-/

namespace Sys2Proof.Laws

/-- A format accepts its operands (R73). -/
theorem accepts_A (nnn : Addr) : Format.A.accepts [nnn.toNat] = true := by
  simp [Format.accepts, Format.fields, Field.fits, Field.width]
  exact decide_eq_true nnn.isLt

/-- A format accepts its operands (R73). -/
theorem accepts_XK (x : Reg) (kk : Byte) : Format.XK.accepts [x.val, kk.toNat] = true := by
  simp [Format.accepts, Format.fields, Field.fits, Field.width]
  exact decide_eq_true kk.isLt

/-- A format accepts its operands (R73). -/
theorem accepts_XY (x y : Reg) : Format.XY.accepts [x.val, y.val] = true := by
  simp [Format.accepts, Format.fields, Field.fits, Field.width]

/-- A format accepts its operands (R73). -/
theorem accepts_XYN (x y : Reg) (n : Nibble) : Format.XYN.accepts [x.val, y.val, n.toNat] = true := by
  simp [Format.accepts, Format.fields, Field.fits, Field.width]
  exact decide_eq_true n.isLt

/-- A format accepts its operands (R73). -/
theorem accepts_X (x : Reg) : Format.X.accepts [x.val] = true := by
  simp [Format.accepts, Format.fields, Field.fits, Field.width]

/-- The full mask of a nibble keeps the nibble. -/
theorem and_full (n : Nibble) : n &&& 15#4 = n := by
  revert n
  decide

/-- The family bits of an opcode of format A. -/
theorem encA_fixed (n1 : Nibble) (nnn : Addr) :
    encA n1 nnn &&& 0xF000 = ofNibbles n1 0 0 0 := by
  rw [show (0xF000 : Word) = ofNibbles 0xF 0 0 0 from rfl, encA, ofNibbles_and]
  simp [and_full]

/-- The family bits of an opcode of format XK. -/
theorem encXK_fixed (n1 : Nibble) (x : Reg) (kk : Byte) :
    encXK n1 x kk &&& 0xF000 = ofNibbles n1 0 0 0 := by
  rw [show (0xF000 : Word) = ofNibbles 0xF 0 0 0 from rfl, encXK, ofNibbles_and]
  simp [and_full]

/-- The family and operation bits of an opcode of format XY. -/
theorem encXY_fixed (n1 : Nibble) (x y : Reg) (n4 : Nibble) :
    encXY n1 x y n4 &&& 0xF00F = ofNibbles n1 0 0 n4 := by
  rw [show (0xF00F : Word) = ofNibbles 0xF 0 0 0xF from rfl, encXY, ofNibbles_and]
  simp [and_full]

/-- The family bits of an opcode of format XYN. -/
theorem encXY_family (n1 : Nibble) (x y : Reg) (n4 : Nibble) :
    encXY n1 x y n4 &&& 0xF000 = ofNibbles n1 0 0 0 := by
  rw [show (0xF000 : Word) = ofNibbles 0xF 0 0 0 from rfl, encXY, ofNibbles_and]
  simp [and_full]

/-- The family and operation bits of an opcode of format X. -/
theorem encX_fixed (n1 : Nibble) (x : Reg) (kk : Byte) :
    encXK n1 x kk &&& 0xF0FF = ofNibbles n1 0 (kk.extractLsb' 4 4) (kk.extractLsb' 0 4) := by
  rw [show (0xF0FF : Word) = ofNibbles 0xF 0 0xF 0xF from rfl, encXK, ofNibbles_and]
  simp [and_full]

/-- Masked bits equal to a row's match are a match. -/
theorem matches_A {op mask value : Word} (h : op &&& mask = value) :
    (Pattern.mk mask value).matchesOp op = true := by
  rw [Pattern.matchesOp, h]
  exact beq_self_eq_true value

/-- The operands fit their fields, and the opcode has the fixed bits of its row. -/
def Encoding.Statement (i : Instr) : Prop :=
  i.WellFormed ∧ i.pattern.matchesOp (encode i) = true

theorem Encoding.cls : Encoding.Statement .cls :=
  ⟨by decide, by decide⟩

theorem Encoding.ret : Encoding.Statement .ret :=
  ⟨by decide, by decide⟩

theorem Encoding.jp (nnn : Addr) : Encoding.Statement (.jp nnn) :=
  ⟨accepts_A nnn, matches_A (encA_fixed _ nnn)⟩

theorem Encoding.call (nnn : Addr) : Encoding.Statement (.call nnn) :=
  ⟨accepts_A nnn, matches_A (encA_fixed _ nnn)⟩

theorem Encoding.seImm (x : Reg) (kk : Byte) : Encoding.Statement (.seImm x kk) :=
  ⟨accepts_XK x kk, matches_A (encXK_fixed _ x kk)⟩

theorem Encoding.sneImm (x : Reg) (kk : Byte) : Encoding.Statement (.sneImm x kk) :=
  ⟨accepts_XK x kk, matches_A (encXK_fixed _ x kk)⟩

theorem Encoding.seReg (x y : Reg) : Encoding.Statement (.seReg x y) :=
  ⟨accepts_XY x y, matches_A (encXY_fixed _ x y _)⟩

theorem Encoding.ldImm (x : Reg) (kk : Byte) : Encoding.Statement (.ldImm x kk) :=
  ⟨accepts_XK x kk, matches_A (encXK_fixed _ x kk)⟩

theorem Encoding.addImm (x : Reg) (kk : Byte) : Encoding.Statement (.addImm x kk) :=
  ⟨accepts_XK x kk, matches_A (encXK_fixed _ x kk)⟩

theorem Encoding.ldReg (x y : Reg) : Encoding.Statement (.ldReg x y) :=
  ⟨accepts_XY x y, matches_A (encXY_fixed _ x y _)⟩

theorem Encoding.orReg (x y : Reg) : Encoding.Statement (.orReg x y) :=
  ⟨accepts_XY x y, matches_A (encXY_fixed _ x y _)⟩

theorem Encoding.andReg (x y : Reg) : Encoding.Statement (.andReg x y) :=
  ⟨accepts_XY x y, matches_A (encXY_fixed _ x y _)⟩

theorem Encoding.xorReg (x y : Reg) : Encoding.Statement (.xorReg x y) :=
  ⟨accepts_XY x y, matches_A (encXY_fixed _ x y _)⟩

theorem Encoding.addReg (x y : Reg) : Encoding.Statement (.addReg x y) :=
  ⟨accepts_XY x y, matches_A (encXY_fixed _ x y _)⟩

theorem Encoding.subReg (x y : Reg) : Encoding.Statement (.subReg x y) :=
  ⟨accepts_XY x y, matches_A (encXY_fixed _ x y _)⟩

theorem Encoding.shr (x y : Reg) : Encoding.Statement (.shr x y) :=
  ⟨accepts_XY x y, matches_A (encXY_fixed _ x y _)⟩

theorem Encoding.subnReg (x y : Reg) : Encoding.Statement (.subnReg x y) :=
  ⟨accepts_XY x y, matches_A (encXY_fixed _ x y _)⟩

theorem Encoding.shl (x y : Reg) : Encoding.Statement (.shl x y) :=
  ⟨accepts_XY x y, matches_A (encXY_fixed _ x y _)⟩

theorem Encoding.sneReg (x y : Reg) : Encoding.Statement (.sneReg x y) :=
  ⟨accepts_XY x y, matches_A (encXY_fixed _ x y _)⟩

theorem Encoding.ldI (nnn : Addr) : Encoding.Statement (.ldI nnn) :=
  ⟨accepts_A nnn, matches_A (encA_fixed _ nnn)⟩

theorem Encoding.jpV0 (nnn : Addr) : Encoding.Statement (.jpV0 nnn) :=
  ⟨accepts_A nnn, matches_A (encA_fixed _ nnn)⟩

theorem Encoding.rnd (x : Reg) (kk : Byte) : Encoding.Statement (.rnd x kk) :=
  ⟨accepts_XK x kk, matches_A (encXK_fixed _ x kk)⟩

theorem Encoding.drw (x y : Reg) (n : Nibble) : Encoding.Statement (.drw x y n) :=
  ⟨accepts_XYN x y n, matches_A (encXY_family _ x y n)⟩

theorem Encoding.skp (x : Reg) : Encoding.Statement (.skp x) :=
  ⟨accepts_X x, matches_A (encX_fixed _ x _)⟩

theorem Encoding.sknp (x : Reg) : Encoding.Statement (.sknp x) :=
  ⟨accepts_X x, matches_A (encX_fixed _ x _)⟩

theorem Encoding.ldVxDT (x : Reg) : Encoding.Statement (.ldVxDT x) :=
  ⟨accepts_X x, matches_A (encX_fixed _ x _)⟩

theorem Encoding.ldVxK (x : Reg) : Encoding.Statement (.ldVxK x) :=
  ⟨accepts_X x, matches_A (encX_fixed _ x _)⟩

theorem Encoding.ldDTVx (x : Reg) : Encoding.Statement (.ldDTVx x) :=
  ⟨accepts_X x, matches_A (encX_fixed _ x _)⟩

theorem Encoding.ldSTVx (x : Reg) : Encoding.Statement (.ldSTVx x) :=
  ⟨accepts_X x, matches_A (encX_fixed _ x _)⟩

theorem Encoding.addIVx (x : Reg) : Encoding.Statement (.addIVx x) :=
  ⟨accepts_X x, matches_A (encX_fixed _ x _)⟩

theorem Encoding.ldFVx (x : Reg) : Encoding.Statement (.ldFVx x) :=
  ⟨accepts_X x, matches_A (encX_fixed _ x _)⟩

theorem Encoding.ldBVx (x : Reg) : Encoding.Statement (.ldBVx x) :=
  ⟨accepts_X x, matches_A (encX_fixed _ x _)⟩

theorem Encoding.stRegs (x : Reg) : Encoding.Statement (.stRegs x) :=
  ⟨accepts_X x, matches_A (encX_fixed _ x _)⟩

theorem Encoding.ldRegs (x : Reg) : Encoding.Statement (.ldRegs x) :=
  ⟨accepts_X x, matches_A (encX_fixed _ x _)⟩

/-- The statement holds of every instruction. -/
theorem encoding_of_every_instr (i : Instr) : Encoding.Statement i := by
  cases i with
  | cls => exact Encoding.cls
  | ret => exact Encoding.ret
  | jp nnn => exact Encoding.jp nnn
  | call nnn => exact Encoding.call nnn
  | seImm x kk => exact Encoding.seImm x kk
  | sneImm x kk => exact Encoding.sneImm x kk
  | seReg x y => exact Encoding.seReg x y
  | ldImm x kk => exact Encoding.ldImm x kk
  | addImm x kk => exact Encoding.addImm x kk
  | ldReg x y => exact Encoding.ldReg x y
  | orReg x y => exact Encoding.orReg x y
  | andReg x y => exact Encoding.andReg x y
  | xorReg x y => exact Encoding.xorReg x y
  | addReg x y => exact Encoding.addReg x y
  | subReg x y => exact Encoding.subReg x y
  | shr x y => exact Encoding.shr x y
  | subnReg x y => exact Encoding.subnReg x y
  | shl x y => exact Encoding.shl x y
  | sneReg x y => exact Encoding.sneReg x y
  | ldI nnn => exact Encoding.ldI nnn
  | jpV0 nnn => exact Encoding.jpV0 nnn
  | rnd x kk => exact Encoding.rnd x kk
  | drw x y n => exact Encoding.drw x y n
  | skp x => exact Encoding.skp x
  | sknp x => exact Encoding.sknp x
  | ldVxDT x => exact Encoding.ldVxDT x
  | ldVxK x => exact Encoding.ldVxK x
  | ldDTVx x => exact Encoding.ldDTVx x
  | ldSTVx x => exact Encoding.ldSTVx x
  | addIVx x => exact Encoding.addIVx x
  | ldFVx x => exact Encoding.ldFVx x
  | ldBVx x => exact Encoding.ldBVx x
  | stRegs x => exact Encoding.stRegs x
  | ldRegs x => exact Encoding.ldRegs x

end Sys2Proof.Laws
end

