-- ==== Sys2Proof/Tests/Slice0.lean ====
section
/-!
SUPPORT. The model's own tests: ill-formed operands, a word for each instruction written out from its
encoding (spec/30_encoding.md R76), single-step vectors of spec/95_test_vectors.md (each names its
row), and for each obligation with hypotheses a state and operands that meet them.
-/

namespace Sys2Proof.Tests

open Sys2Proof.Machine

/-! Well-formedness: a bad term for each check (30_encoding.md R72, R73) -/

theorem test_wf_refuses_x16 : Format.X.accepts [16] = false := by decide
theorem test_wf_refuses_y16 : Format.XY.accepts [1, 16] = false := by decide
theorem test_wf_refuses_n16 : Format.XYN.accepts [1, 2, 16] = false := by decide
theorem test_wf_refuses_kk256 : Format.XK.accepts [1, 256] = false := by decide
theorem test_wf_refuses_nnn4096 : Format.A.accepts [4096] = false := by decide
theorem test_wf_refuses_missing_operand : Format.XK.accepts [1] = false := by decide
theorem test_wf_refuses_extra_operand : Format.N.accepts [0] = false := by decide
theorem test_wf_accepts_largest :
    Format.XYN.accepts [15, 15, 15] = true ∧ Format.XK.accepts [15, 255] = true ∧
      Format.A.accepts [4095] = true := by decide

/-! Decoding: a word for every instruction, its bits written out from the encoding of R76 -/

theorem test_decode_cls : decodeWord 0b0000_0000_1110_0000 = some (.cls) := by decide
theorem test_decode_ret : decodeWord 0b0000_0000_1110_1110 = some (.ret) := by decide
theorem test_decode_jp : decodeWord 0b0001_0010_0000_1000 = some (.jp 0x208) := by decide
theorem test_decode_call : decodeWord 0b0010_0011_0000_0000 = some (.call 0x300) := by decide
theorem test_decode_seImm : decodeWord 0b0011_0011_0100_0010 = some (.seImm 3 0x42) := by decide
theorem test_decode_sneImm : decodeWord 0b0100_0011_0100_0010 = some (.sneImm 3 0x42) := by decide
theorem test_decode_seReg : decodeWord 0b0101_0001_0010_0000 = some (.seReg 1 2) := by decide
theorem test_decode_ldImm : decodeWord 0b0110_1010_0010_1011 = some (.ldImm 10 0x2B) := by decide
theorem test_decode_addImm : decodeWord 0b0111_0001_0000_1010 = some (.addImm 1 0x0A) := by decide
theorem test_decode_ldReg : decodeWord 0b1000_0001_0010_0000 = some (.ldReg 1 2) := by decide
theorem test_decode_orReg : decodeWord 0b1000_0001_0010_0001 = some (.orReg 1 2) := by decide
theorem test_decode_andReg : decodeWord 0b1000_0001_0010_0010 = some (.andReg 1 2) := by decide
theorem test_decode_xorReg : decodeWord 0b1000_0001_0010_0011 = some (.xorReg 1 2) := by decide
theorem test_decode_addReg : decodeWord 0b1000_0001_0010_0100 = some (.addReg 1 2) := by decide
theorem test_decode_subReg : decodeWord 0b1000_0001_0010_0101 = some (.subReg 1 2) := by decide
theorem test_decode_shr : decodeWord 0b1000_0001_0010_0110 = some (.shr 1 2) := by decide
theorem test_decode_subnReg : decodeWord 0b1000_0001_0010_0111 = some (.subnReg 1 2) := by decide
theorem test_decode_shl : decodeWord 0b1000_0001_0010_1110 = some (.shl 1 2) := by decide
theorem test_decode_sneReg : decodeWord 0b1001_0001_0010_0000 = some (.sneReg 1 2) := by decide
theorem test_decode_ldI : decodeWord 0b1010_0010_1111_0000 = some (.ldI 0x2F0) := by decide
theorem test_decode_jpV0 : decodeWord 0b1011_0011_0000_0000 = some (.jpV0 0x300) := by decide
theorem test_decode_rnd : decodeWord 0b1100_0011_0000_1111 = some (.rnd 3 0x0F) := by decide
theorem test_decode_drw : decodeWord 0b1101_1011_1100_0101 = some (.drw 11 12 5) := by decide
theorem test_decode_skp : decodeWord 0b1110_0001_1001_1110 = some (.skp 1) := by decide
theorem test_decode_sknp : decodeWord 0b1110_0001_1010_0001 = some (.sknp 1) := by decide
theorem test_decode_ldVxDT : decodeWord 0b1111_0011_0000_0111 = some (.ldVxDT 3) := by decide
theorem test_decode_ldVxK : decodeWord 0b1111_0010_0000_1010 = some (.ldVxK 2) := by decide
theorem test_decode_ldDTVx : decodeWord 0b1111_0100_0001_0101 = some (.ldDTVx 4) := by decide
theorem test_decode_ldSTVx : decodeWord 0b1111_0100_0001_1000 = some (.ldSTVx 4) := by decide
theorem test_decode_addIVx : decodeWord 0b1111_0100_0001_1110 = some (.addIVx 4) := by decide
theorem test_decode_ldFVx : decodeWord 0b1111_0010_0010_1001 = some (.ldFVx 2) := by decide
theorem test_decode_ldBVx : decodeWord 0b1111_0101_0011_0011 = some (.ldBVx 5) := by decide
theorem test_decode_stRegs : decodeWord 0b1111_0010_0101_0101 = some (.stRegs 2) := by decide
theorem test_decode_ldRegs : decodeWord 0b1111_0010_0110_0101 = some (.ldRegs 2) := by decide

theorem test_decode_unmatched :
    decodeWord 0x0123 = none ∧ decodeWord 0x8128 = none ∧ decodeWord 0x5121 = none ∧
      decodeWord 0x9121 = none ∧ decodeWord 0xE1A0 = none ∧ decodeWord 0xF0FF = none := by decide

theorem test_decode_big_endian : decode [0x12, 0x08, 0xFF] = .ok (.jp 0x208, [0xFF]) := by
  decide

theorem test_decode_truncated : decode [0x12] = .error .truncated := by decide

theorem test_decode_rejects_by_name : decode [0x81, 0x28] = .error (.unmatched 0x8128) := by
  decide

theorem test_table_word : decodeTableWord 16 0x8126 = some (.shr 1 2) := by decide

/-! Single steps.  `at200` is the start state of 95_test_vectors.md without the font, which no vector
below reads; `after s op f` stores the opcode at the fetch address of `s`, takes one step and reads
`f`. -/

/-- The state after reset with `pc` at the program base. -/
def at200 : State := { State.reset with pc := 0x200 }

/-- The state with the given registers written. -/
def regs (s : State) : List (Reg × Byte) → State
  | [] => s
  | (r, v) :: rest => regs (s.setReg r v) rest

/-- The state with the given memory bytes written. -/
def bytes (s : State) (addr : Nat) (bs : List Byte) : State := s.setMem (s.mem.fill addr bs)

/-- The state with the given pixels on. -/
def pixels (s : State) : List (Nat × Nat) → State
  | [] => s
  | (x, y) :: rest => pixels (s.setScreen (flipPix s.fb x y)) rest

/-- The state with the given keys pressed. -/
def pressed (s : State) : List Reg → State
  | [] => s
  | k :: rest => pressed (setKey k true s) rest

/-- What `f` reads after one step of the state with the opcode at its fetch address. -/
def after {α : Type} (s : State) (op : Word) (f : State → α) : Option α :=
  match step (s.placeInstr op) with
  | .next t => some (f t)
  | .fault _ => none
  | .refused _ => none

/-- The run state and the fault record. -/
def record (s : State) : RunState × Byte × Word × Word × Word :=
  (s.run, s.fcause, s.fpc, s.fop, s.finfo)

/-- Which of the given places are on. -/
def lit (ps : List (Nat × Nat)) (s : State) : List Bool := ps.map fun p => pix s.fb p.1 p.2

/-! Step cycle -/

/-- 95_test_vectors.md S3. -/
theorem test_step_unmatched :
    after (regs at200 [(1, 1), (2, 2)]) 0x8128 (fun t => (t.pc, t.reg 1, t.reg 15)) =
      some (0x202, 1, 0) := by decide

/-- 95_test_vectors.md S7. -/
theorem test_step_noop_counts_timers :
    after { at200 with DT := 3, ST := 3 } 0xF0FF (fun t => (t.pc, t.DT, t.ST)) =
      some (0x202, 2, 2) := by decide

/-- 95_test_vectors.md S8. -/
theorem test_step_wraps_at_4096 :
    after (pixels { at200 with pc := 0x1000 } [(5, 5)]) 0x00E0
      (fun t => (t.pc, pix t.fb 5 5)) = some (0x002, false) := by decide

/-- 95_test_vectors.md S9. -/
theorem test_step_fetch_at_4095 :
    (match step { at200 with pc := 0xFFF } with
      | .next t => some (record t, t.pc)
      | _ => none) = some ((.faulted, 1, 0xFFF, 0, 0xFFF), 0xFFF) := by decide

/-- 95_test_vectors.md S10. -/
theorem test_step_fetch_above_4096 :
    (match step { at200 with pc := 0x1002 } with
      | .next t => some (record t, t.pc)
      | _ => none) = some ((.faulted, 1, 0x1002, 0, 0x1002), 0x1002) := by decide

/-- 95_test_vectors.md S12. -/
theorem test_step_sticky :
    (match step { at200 with run := .faulted, DT := 5 } with
      | .next t => some (t.DT, t.pc)
      | _ => none) = some (5, 0x200) := by decide

/-- 95_test_vectors.md S13. -/
theorem test_step_odd_pc :
    after { at200 with pc := 0x201 } 0x6123 (fun t => (t.reg 1, t.pc)) = some (0x23, 0x203) := by decide

/-! Control flow -/

/-- 95_test_vectors.md F1. -/
theorem test_ret :
    after { at200 with sp := 1, stack := (Vector.replicate 16 0).set 0 0x204 } 0x00EE
      (fun t => (t.pc, t.sp, t.stack[0])) = some (0x204, 0, 0x204) := by decide

/-- 95_test_vectors.md F2. -/
theorem test_ret_underflow :
    after at200 0x00EE (fun t => (record t, t.pc)) = some ((.faulted, 5, 0x200, 0x00EE, 0), 0x200) := by decide

/-- 95_test_vectors.md F5. -/
theorem test_jp :
    after at200 0x1301 (fun t => t.pc) = some 0x301 := by decide

/-- 95_test_vectors.md F7. -/
theorem test_call_top_entry :
    after { at200 with sp := 15 } 0x2300 (fun t => (t.pc, t.sp, t.stack[15])) =
      some (0x300, 16, 0x202) := by decide

/-- 95_test_vectors.md F8. -/
theorem test_call_overflow :
    after { at200 with sp := 16 } 0x2300 (fun t => (record t, t.pc, t.sp)) =
      some ((.faulted, 4, 0x200, 0x2300, 16), 0x200, 16) := by decide

/-- 95_test_vectors.md F9. -/
theorem test_call_at_top_of_memory :
    after { at200 with pc := 0xFFE } 0x2300 (fun t => (t.pc, t.sp, t.stack[0])) =
      some (0x300, 1, 0x1000) := by decide

/-- 95_test_vectors.md F10 and F11. -/
theorem test_seImm :
    after (regs at200 [(3, 0x42)]) 0x3342 (fun t => t.pc) = some 0x204 ∧
      after (regs at200 [(3, 0x41)]) 0x3342 (fun t => t.pc) = some 0x202 := by decide

/-- 95_test_vectors.md F12. -/
theorem test_seImm_at_top :
    after { at200 with pc := 0xFFE } 0x3000 (fun t => t.pc) = some 0x1002 := by decide

/-- 95_test_vectors.md F13 and F14. -/
theorem test_sneImm :
    after (regs at200 [(3, 0x41)]) 0x4342 (fun t => t.pc) = some 0x204 ∧
      after (regs at200 [(3, 0x42)]) 0x4342 (fun t => t.pc) = some 0x202 := by decide

/-- 95_test_vectors.md F15 and F16. -/
theorem test_seReg :
    after (regs at200 [(1, 7), (2, 7)]) 0x5120 (fun t => t.pc) = some 0x204 ∧
      after (regs at200 [(1, 7), (2, 8)]) 0x5120 (fun t => t.pc) = some 0x202 := by decide

/-- 95_test_vectors.md F18 and F19. -/
theorem test_sneReg :
    after (regs at200 [(1, 7), (2, 8)]) 0x9120 (fun t => t.pc) = some 0x204 ∧
      after (regs at200 [(1, 7), (2, 7)]) 0x9120 (fun t => t.pc) = some 0x202 := by decide

/-- 95_test_vectors.md F21. -/
theorem test_jpV0_at_4096 :
    after (regs at200 [(0, 1)]) 0xBFFF (fun t => t.pc) = some 0x1000 := by decide

/-- 95_test_vectors.md F22. -/
theorem test_jpV0_largest :
    after (regs at200 [(0, 0xFF)]) 0xBFFF (fun t => t.pc) = some 0x10FE := by decide

/-! Register and ALU -/

/-- 95_test_vectors.md A1. -/
theorem test_ldImm :
    after (regs at200 []) 0x6A2B (fun t => (t.reg 10, t.reg 15, t.pc)) =
      some (0x2B, 0, 0x202) := by decide

/-- 95_test_vectors.md A3, E1. -/
theorem test_addImm_wraps :
    after (regs at200 [(1, 250), (15, 9)]) 0x710A (fun t => (t.reg 1, t.reg 15, t.pc)) =
      some (4, 9, 0x202) := by decide

/-- 95_test_vectors.md A4. -/
theorem test_addImm_of_vf :
    after (regs at200 [(15, 0xFF)]) 0x7F01 (fun t => (t.reg 15, t.reg 15, t.pc)) =
      some (0, 0, 0x202) := by decide

/-- 95_test_vectors.md A5. -/
theorem test_ldReg :
    after (regs at200 [(2, 9)]) 0x8120 (fun t => (t.reg 1, t.reg 15, t.pc)) =
      some (9, 0, 0x202) := by decide

/-- 95_test_vectors.md A6. -/
theorem test_orReg :
    after (regs at200 [(1, 0x0C), (2, 0x0A), (15, 5)]) 0x8121 (fun t => (t.reg 1, t.reg 15, t.pc)) =
      some (0x0E, 5, 0x202) := by decide

/-- 95_test_vectors.md A7. -/
theorem test_andReg :
    after (regs at200 [(1, 0x0C), (2, 0x0A), (15, 5)]) 0x8122 (fun t => (t.reg 1, t.reg 15, t.pc)) =
      some (0x08, 5, 0x202) := by decide

/-- 95_test_vectors.md A8. -/
theorem test_xorReg :
    after (regs at200 [(1, 0x0C), (2, 0x0A), (15, 5)]) 0x8123 (fun t => (t.reg 1, t.reg 15, t.pc)) =
      some (0x06, 5, 0x202) := by decide

/-- 95_test_vectors.md A10, E2. -/
theorem test_addReg_carry :
    after (regs at200 [(1, 200), (2, 100)]) 0x8124 (fun t => (t.reg 1, t.reg 15, t.pc)) =
      some (0x2C, 1, 0x202) := by decide

/-- 95_test_vectors.md A12. -/
theorem test_addReg_no_carry :
    after (regs at200 [(1, 0xFF), (2, 0)]) 0x8124 (fun t => (t.reg 1, t.reg 15, t.pc)) =
      some (0xFF, 0, 0x202) := by decide

/-- 95_test_vectors.md A17, E3. -/
theorem test_subReg_borrow :
    after (regs at200 [(1, 5), (2, 10)]) 0x8125 (fun t => (t.reg 1, t.reg 15, t.pc)) =
      some (0xFB, 0, 0x202) := by decide

/-- 95_test_vectors.md A19. -/
theorem test_subReg_equal :
    after (regs at200 [(1, 7), (2, 7)]) 0x8125 (fun t => (t.reg 1, t.reg 15, t.pc)) =
      some (0, 0, 0x202) := by decide

/-- 95_test_vectors.md A25. -/
theorem test_shr_ignores_vy :
    after (regs at200 [(1, 0x80), (2, 0xFF)]) 0x8126 (fun t => (t.reg 1, t.reg 15, t.pc)) =
      some (0x40, 0, 0x202) := by decide

/-- 95_test_vectors.md A23. -/
theorem test_shr_bit :
    after (regs at200 [(1, 5)]) 0x8106 (fun t => (t.reg 1, t.reg 15, t.pc)) =
      some (2, 1, 0x202) := by decide

/-- 95_test_vectors.md A27. -/
theorem test_subnReg :
    after (regs at200 [(1, 5), (2, 10)]) 0x8127 (fun t => (t.reg 1, t.reg 15, t.pc)) =
      some (5, 1, 0x202) := by decide

/-- 95_test_vectors.md A28. -/
theorem test_subnReg_borrow :
    after (regs at200 [(1, 10), (2, 5)]) 0x8127 (fun t => (t.reg 1, t.reg 15, t.pc)) =
      some (0xFB, 0, 0x202) := by decide

/-- 95_test_vectors.md A32. -/
theorem test_shl :
    after (regs at200 [(1, 0x81)]) 0x810E (fun t => (t.reg 1, t.reg 15, t.pc)) =
      some (2, 1, 0x202) := by decide

/-- 95_test_vectors.md A33. -/
theorem test_shl_to_zero :
    after (regs at200 [(1, 0x80)]) 0x810E (fun t => (t.reg 1, t.reg 15, t.pc)) =
      some (0, 1, 0x202) := by decide

/-- 95_test_vectors.md A14, A16, A20 to A22, A26, A30, A31, A34, A35: the SEQUENTIAL results. -/
theorem test_vf_alias_sequential :
    after (regs at200 [(15, 200), (2, 100)]) 0x8F24 (fun t => t.reg 15) = some 0x2C ∧
      after (regs at200 [(15, 0x90)]) 0x8FF4 (fun t => t.reg 15) = some 0x20 ∧
      after (regs at200 [(15, 5), (2, 3)]) 0x8F25 (fun t => t.reg 15) = some 0xFE ∧
      after (regs at200 [(1, 10), (15, 3)]) 0x81F5 (fun t => (t.reg 1, t.reg 15)) = some (9, 1) ∧
      after (regs at200 [(15, 9)]) 0x8FF5 (fun t => t.reg 15) = some 0 ∧
      after (regs at200 [(15, 0xFF)]) 0x8F06 (fun t => t.reg 15) = some 0 ∧
      after (regs at200 [(15, 3), (2, 10)]) 0x8F27 (fun t => t.reg 15) = some 9 ∧
      after (regs at200 [(1, 3), (15, 10)]) 0x81F7 (fun t => (t.reg 1, t.reg 15)) = some (0xFE, 1) ∧
      after (regs at200 [(15, 0x80)]) 0x8F0E (fun t => t.reg 15) = some 2 ∧
      after (regs at200 [(15, 0x7F)]) 0x8F0E (fun t => t.reg 15) = some 0 := by decide

/-- 93_implementation_defined.md section 2, rows 8FF4, 8F25, 81F5, 8F06, 8F27, 81F7, 8F0E: the values
of the two other readings. -/
theorem test_vf_alias_other_readings :
    (writeCarry .flagLast carryFlag sumByte 15 15 (regs at200 [(15, 0x90)])).reg 15 = 1 ∧
      (writeFlagged .operandsFirst greaterFlag diffByte 15 2 (regs at200 [(15, 5), (2, 3)])).reg 15 =
        2 ∧
      (let s := writeFlagged .operandsFirst greaterFlag diffByte 1 15 (regs at200 [(1, 10), (15, 3)]);
        (s.reg 1, s.reg 15) = (7, 1)) ∧
      (writeFlagged .operandsFirst lowBitFlag shrByte 15 0 (regs at200 [(15, 0xFF)])).reg 15 =
        0x7F ∧
      (writeFlagged .flagLast lessFlag revDiffByte 15 2 (regs at200 [(15, 3), (2, 10)])).reg 15 = 1 ∧
      (let s := writeFlagged .flagLast lessFlag revDiffByte 1 15 (regs at200 [(1, 3), (15, 10)]);
        (s.reg 1, s.reg 15) = (7, 1)) ∧
      (writeFlagged .operandsFirst highBitFlag shlByte 15 0 (regs at200 [(15, 0x7F)])).reg 15 =
        0xFE := by decide

/-- 95_test_vectors.md A37: with kk = 0 the result is 0 for every draw. -/
theorem test_rnd_kk0 :
    ∃ t, exec (.rnd 3 0) (regs at200 [(3, 9)]) = .next t ∧ t.reg 3 = 0 ∧ t.pc = 0x202 :=
  ⟨_, rfl, by
    show (Config.randomByte 0 &&& 0#8 : Byte) = 0
    exact BitVec.and_zero, rfl⟩

/-! Index register and memory -/

/-- 95_test_vectors.md M1. -/
theorem test_ldI :
    after at200 0xA2F0 (fun t => t.I) = some 0x2F0 := by decide

/-- 95_test_vectors.md M3. -/
theorem test_addIVx_wraps :
    after (regs { at200 with I := 0xFFFF } [(4, 2)]) 0xF41E (fun t => (t.I, t.reg 15)) = some (1, 0) := by decide

/-- 95_test_vectors.md M5 and M7. -/
theorem test_ldFVx :
    after (regs at200 [(2, 0x0A)]) 0xF229 (fun t => t.I) = some 0x082 ∧
      after (regs at200 [(2, 0x1A)]) 0xF229 (fun t => t.I) = some 0x082 := by decide

/-- 95_test_vectors.md M8. -/
theorem test_ldBVx :
    after (regs { at200 with I := 0x300 } [(5, 156)]) 0xF533
      (fun t => [t.mem.read 0x300, t.mem.read 0x301, t.mem.read 0x302]) = some [1, 5, 6] := by decide

/-- 95_test_vectors.md M11. -/
theorem test_ldBVx_out_of_range :
    after (regs { at200 with I := 0xFFE } [(5, 156)]) 0xF533
      (fun t => (record t, t.mem.read 0xFFE)) = some ((.faulted, 3, 0x200, 0xF533, 0x1000), 0) := by decide

/-- 95_test_vectors.md M12. -/
theorem test_stRegs :
    after (regs { at200 with I := 0x300 } [(0, 1), (1, 2), (2, 3)]) 0xF255
      (fun t => ([t.mem.read 0x300, t.mem.read 0x301, t.mem.read 0x302, t.mem.read 0x303], t.I)) =
      some ([1, 2, 3, 0], 0x300) := by decide

/-- 95_test_vectors.md M18. -/
theorem test_stRegs_last_byte :
    after (regs { at200 with I := 0xFFF } [(0, 0x12)]) 0xF055 (fun t => t.mem.read 0xFFF) = some 0x12 := by decide

/-- 95_test_vectors.md M15. -/
theorem test_ldRegs :
    after (bytes { at200 with I := 0x300 } 0x300 [7, 8, 9, 10]) 0xF265
      (fun t => ([t.reg 0, t.reg 1, t.reg 2, t.reg 3], t.I)) = some ([7, 8, 9, 0], 0x300) := by decide

/-- 95_test_vectors.md M17. -/
theorem test_ldRegs_out_of_range :
    after { at200 with I := 0x1000 } 0xF165 (fun t => record t) =
      some (.faulted, 2, 0x200, 0xF165, 0x1000) := by decide

/-! Display -/

/-- 95_test_vectors.md D1. -/
theorem test_cls :
    after (pixels at200 [(0, 0), (63, 31)]) 0x00E0 (fun t => (t.fb, t.pc)) = some (blankScreen, 0x202) := by decide

/-- 95_test_vectors.md D4. -/
theorem test_drw_origin_and_bit_order :
    after (bytes (regs { at200 with I := 0x300 } [(1, 66), (2, 33)]) 0x300 [0x81]) 0xD121
      (fun t => (t.fb, t.reg 15)) = some ((pixels at200 [(2, 1), (9, 1)]).fb, 0) := by decide

/-- 95_test_vectors.md D9. -/
theorem test_drw_clips_and_collides :
    after (pixels (bytes (regs { at200 with I := 0x300 } [(1, 62)]) 0x300 [0xFF]) [(62, 0)]) 0xD121
      (fun t => (t.fb, t.reg 15)) = some ((pixels at200 [(63, 0)]).fb, 1) := by decide

/-! Keypad and timers -/

/-- 95_test_vectors.md K1 and K2. -/
theorem test_skp :
    after (pressed (regs at200 [(1, 5)]) [5]) 0xE19E (fun t => t.pc) = some 0x204 ∧
      after (regs at200 [(1, 5)]) 0xE19E (fun t => t.pc) = some 0x202 := by decide

/-- 95_test_vectors.md K3. -/
theorem test_skp_index :
    after (regs at200 [(1, 16)]) 0xE19E (fun t => record t) =
      some (.faulted, 6, 0x200, 0xE19E, 16) := by decide

/-- 95_test_vectors.md K4 and K5. -/
theorem test_sknp :
    after (regs at200 [(1, 5)]) 0xE1A1 (fun t => t.pc) = some 0x204 ∧
      after (pressed (regs at200 [(1, 5)]) [5]) 0xE1A1 (fun t => t.pc) = some 0x202 := by decide

/-- 95_test_vectors.md K6. -/
theorem test_sknp_index :
    after (regs at200 [(1, 0xFF)]) 0xE1A1 (fun t => record t) =
      some (.faulted, 6, 0x200, 0xE1A1, 0xFF) := by decide

/-- 95_test_vectors.md K8. -/
theorem test_ldVxK_lowest :
    after (pressed { at200 with pc := 0x210 } [0xB, 0xE]) 0xF20A (fun t => (t.reg 2, t.pc)) =
      some (0x0B, 0x212) := by decide

/-- 95_test_vectors.md K9 and K16. -/
theorem test_ldVxK_waits :
    after { at200 with DT := 4, ST := 2 } 0xF20A (fun t => (t.pc, t.DT, t.ST)) =
        some (0x200, 3, 1) ∧
      after { at200 with pc := 0x1000 } 0xF00A (fun t => t.pc) = some 0 := by decide

/-- 95_test_vectors.md K10. -/
theorem test_ldVxDT :
    after { at200 with DT := 10 } 0xF307 (fun t => (t.reg 3, t.DT)) = some (10, 9) := by decide

/-- 95_test_vectors.md K12. -/
theorem test_ldDTVx :
    after (regs at200 [(4, 60)]) 0xF415 (fun t => t.DT) = some 59 := by decide

/-- 95_test_vectors.md K15. -/
theorem test_ldSTVx :
    after (regs at200 [(4, 1)]) 0xF418 (fun t => (t.ST, toneOn t)) = some (0, false) := by decide

/-! Host ports, reset and load -/

/-- 95_test_vectors.md H4: cell 133 is pixel (5, 2), its neighbours are off. -/
theorem test_framebuffer_view :
    let v := framebufferView (pixels at200 [(5, 2)])
    v[133] = 1 ∧ v[132] = 0 ∧ v[134] = 0 := by
  simp only [framebufferView, Vector.getElem_ofFn]
  decide

/-- 95_test_vectors.md L1: the reply, `pc`, the two program bytes and two bytes of the font. -/
theorem test_load :
    let r := load [0x12, 0x00] State.reset
    r.1 = .loadOk ∧ r.2.pc = 0x200 ∧ r.2.mem.read 0x200 = 0x12 ∧ r.2.mem.read 0x201 = 0x00 ∧
      r.2.mem.read 0x050 = 0xF0 ∧ r.2.mem.read 0x09F = 0x80 := by
  have h := Memory.fill_wf (m := []) ⟨List.Pairwise.nil, by simp⟩ 0x050 fontTable.toList (by simp)
  have hp := Memory.read_fill h 0x200 [0x12, 0x00] (by simp)
  have hf := Memory.read_fill (m := []) ⟨List.Pairwise.nil, by simp⟩ 0x050 fontTable.toList (by simp)
  refine ⟨rfl, rfl, ?_, ?_, ?_, ?_⟩
  · exact hp 0x200
  · exact hp 0x201
  · exact (hp 0x050).trans (hf 0x050)
  · exact (hp 0x09F).trans (hf 0x09F)

/-- 95_test_vectors.md L3: 3585 bytes are refused and nothing changes. -/
theorem test_load_too_long (bs : List Byte) (h : bs.length = 3585) :
    load bs at200 = (.loadError, at200) := by
  simp [load, loadWith, h]

/-- 40_step_cycle.md R107, 70_reset_and_hazards.md R272: reset alone runs zero memory as no-ops. -/
theorem test_reset_runs_noop : step State.reset = .next { State.reset with pc := 2 } := by rfl

/-- The first instruction after reset is the one `withFetchWord` stores. -/
theorem test_with_fetch_word :
    (match step (State.reset.withFetchWord 16 0x6A2B) with
      | .next t => some (t.reg 10, t.pc)
      | _ => none) = some (0x2B, 2) := by decide

/-! Witnesses: for each obligation with hypotheses, a state and operands that meet them, clause by
clause and at the edges of each range.  The name says which obligation. -/

theorem test_hyp_EncodeOfDecodeIsTheOpcode : decodeWord 0xD123 = some (.drw 1 2 3) := by decide

/-- Both ends of the fetch range, and the wrapped `pc`. -/
theorem test_hyp_StepRunsTheDecodedInstruction :
    (let s := at200.placeInstr 0x8124;
      s.run = .running ∧ (fetchAddr s).toNat + 1 < 4096 ∧
        decodeWord (wordOfBytes (s.mem.read (fetchAddr s).toNat)
          (s.mem.read ((fetchAddr s).toNat + 1))) = some (.addReg 1 2)) ∧
    (let s := State.placeInstr { at200 with pc := 0xFFE } 0x1208;
      s.run = .running ∧ (fetchAddr s).toNat + 1 < 4096 ∧
        decodeWord (wordOfBytes (s.mem.read (fetchAddr s).toNat)
          (s.mem.read ((fetchAddr s).toNat + 1))) = some (.jp 0x208)) ∧
    (let s := State.placeInstr { at200 with pc := 0x1000 } 0x00E0;
      s.pc.toNat = 4096 ∧ s.run = .running ∧ (fetchAddr s).toNat + 1 < 4096 ∧
        decodeWord (wordOfBytes (s.mem.read (fetchAddr s).toNat)
          (s.mem.read ((fetchAddr s).toNat + 1))) = some .cls) := by decide

theorem test_hyp_UnmatchedOpcodeIsNoOp :
    let s := at200.placeInstr 0x8128
    s.run = .running ∧ (fetchAddr s).toNat + 1 < 4096 ∧
      decodeWord (wordOfBytes (s.mem.read (fetchAddr s).toNat)
        (s.mem.read ((fetchAddr s).toNat + 1))) = none := by decide

theorem test_hyp_FetchOutsideMemoryFaults :
    (let s : State := { at200 with pc := 0xFFF };
      s.run = .running ∧ 4096 ≤ (fetchAddr s).toNat + 1) ∧
    (let s : State := { at200 with pc := 0x1001 };
      s.run = .running ∧ 4096 ≤ (fetchAddr s).toNat + 1) := by decide

theorem test_hyp_FaultedStateIsSticky : ({ at200 with run := .faulted } : State).run = .faulted := rfl

/-- A faulting fetch, and a faulting instruction. -/
theorem test_hyp_FaultingStepIsPrecise :
    (let s : State := { at200 with pc := 0xFFF };
      ∃ t, s.run = .running ∧ step s = .next t ∧ t.run = .faulted) ∧
    (let s := at200.placeInstr 0x00EE;
      ∃ t, s.run = .running ∧ step s = .next t ∧ t.run = .faulted) :=
  ⟨⟨_, rfl, rfl, rfl⟩, ⟨_, rfl, rfl, rfl⟩⟩

/-- A timer written in the same step, and a no-op. -/
theorem test_hyp_TimersCountDownOncePerStep :
    (let s := at200.placeInstr 0xF415;
      ∃ t, s.run = .running ∧ step s = .next t ∧ t.run = .running) ∧
    (let s := at200.placeInstr 0xF418;
      ∃ t, s.run = .running ∧ step s = .next t ∧ t.run = .running) ∧
    (let s := at200.placeInstr 0x0000;
      ∃ t, s.run = .running ∧ step s = .next t ∧ t.run = .running) :=
  ⟨⟨_, rfl, rfl, rfl⟩, ⟨_, rfl, rfl, rfl⟩, ⟨_, rfl, rfl, rfl⟩⟩

/-- Plus 2, plus 4, waiting, a jump, a computed jump, a return. -/
theorem test_hyp_PcAfterAStep :
    (let s := at200.placeInstr 0x0000;
      ∃ t, s.run = .running ∧ step s = .next t ∧ t.run = .running ∧ t.pc = 0x202) ∧
    (let s := at200.placeInstr 0x3000;
      ∃ t, s.run = .running ∧ step s = .next t ∧ t.run = .running ∧ t.pc = 0x204) ∧
    (let s := at200.placeInstr 0xF00A;
      ∃ t, s.run = .running ∧ step s = .next t ∧ t.run = .running ∧ t.pc = 0x200) ∧
    (let s := at200.placeInstr 0x1208;
      ∃ t, s.run = .running ∧ step s = .next t ∧ t.run = .running ∧ t.pc = 0x208) ∧
    (let s := at200.placeInstr 0xBFFF;
      ∃ t, s.run = .running ∧ step s = .next t ∧ t.run = .running ∧ t.pc = 0xFFF) ∧
    (let s := State.placeInstr { at200 with sp := 1 } 0x00EE;
      ∃ t, s.run = .running ∧ step s = .next t ∧ t.run = .running ∧ t.pc = 0) :=
  ⟨⟨_, rfl, rfl, rfl, rfl⟩, ⟨_, rfl, rfl, rfl, rfl⟩, ⟨_, rfl, rfl, rfl, rfl⟩,
    ⟨_, rfl, rfl, rfl, rfl⟩, ⟨_, rfl, rfl, rfl, rfl⟩, ⟨_, rfl, rfl, rfl, rfl⟩⟩

/-- The start state meets the invariant. -/
theorem test_inv_at200 : at200.Inv :=
  ⟨by decide, by decide, by decide, ⟨List.Pairwise.nil, by simp [at200, State.reset]⟩,
    fun _ => (by decide), fun h => (by cases h)⟩

/-- The invariant at the largest `sp` and `pc` it allows, with a byte in memory. -/
theorem test_inv_at_the_edges :
    State.Inv { at200 with sp := 16, pc := 0x10FE, mem := [(0xFFF, 1)] } :=
  ⟨by decide, by decide, by decide, ⟨List.pairwise_singleton _ _, by simp⟩, fun _ => by decide,
    fun h => by cases h⟩

/-- The invariant of a faulted state. -/
theorem test_inv_faulted : State.Inv { at200 with run := .faulted, fcause := 6, fpc := 0x200 } :=
  ⟨by decide, by decide, by decide, ⟨List.Pairwise.nil, by simp [at200, State.reset]⟩,
    fun h => (by cases h), fun _ => by decide⟩

theorem test_hyp_StepKeepsTheInvariant : ∃ t : State, at200.Inv ∧ step at200 = .next t :=
  ⟨_, test_inv_at200, rfl⟩

theorem test_hyp_StepReturnsUnderTheInvariant :
    State.Inv { at200 with sp := 16, pc := 0x10FE, mem := [(0xFFF, 1)] } := test_inv_at_the_edges

theorem test_hyp_HostRunsKeepTheInvariant :
    State.Inv { at200 with run := .faulted, fcause := 6, fpc := 0x200 } := test_inv_faulted

/-- An instruction that completes, and one that faults. -/
theorem test_hyp_FrameOfEveryInstruction :
    (∃ t : State, exec (.addReg 1 2) at200 = .next t ∧ mayWriteReg (.addReg 1 2) 3 = false) ∧
    (∃ t : State, exec .ret at200 = .next t ∧ mayWriteReg .ret 0 = false) :=
  ⟨⟨_, rfl, rfl⟩, ⟨_, rfl, rfl⟩⟩

theorem test_hyp_KeypadSeenOnlyByKeyInstructions : readsKeypad (.ldVxDT 0) = false := rfl

theorem test_hyp_SoundTimerReadByNoInstruction :
    (∀ x : Reg, Instr.ldVxDT 0 ≠ .ldSTVx x) ∧ ∃ x : Reg, Instr.ldSTVx 4 = .ldSTVx x :=
  ⟨fun _ h => (by cases h), ⟨4, rfl⟩⟩

theorem test_hyp_RetRestoresPc :
    (let s : State := { at200 with sp := 1 };
      1 ≤ s.sp.toNat ∧ s.sp.toNat ≤ 16 ∧ (0 : Reg).val + 1 = s.sp.toNat) ∧
    (let s : State := { at200 with sp := 16 };
      1 ≤ s.sp.toNat ∧ s.sp.toNat ≤ 16 ∧ (15 : Reg).val + 1 = s.sp.toNat) := by decide

theorem test_hyp_RetOfEmptyStackFaults :
    at200.sp = 0 ∧ 16 < ({ at200 with sp := 17 } : State).sp.toNat := by decide

theorem test_hyp_CallPushesTheReturnAddress :
    at200.sp.toNat < 16 ∧ ({ at200 with sp := 15 } : State).sp.toNat < 16 := by decide

theorem test_hyp_CallOfFullStackFaults :
    ({ at200 with sp := 16 } : State).sp.toNat = 16 ∧
      16 < ({ at200 with sp := 17 } : State).sp.toNat := by decide

theorem test_hyp_CallThenRetRoundTrip :
    ∃ t u : State, at200.sp.toNat < 16 ∧ exec (.call 0x300) at200 = .next t ∧ u.stack = t.stack ∧
      u.sp = t.sp :=
  ⟨_, _, by decide, rfl, rfl, rfl⟩

theorem test_hyp_SkipOnRegisters :
    (d1 0x5121 = 0x5 ∧ d4 0x5121 ≠ 0x0) ∧ d1 0x912F = 0x9 ∧ d4 0x912F ≠ 0x0 := by decide

/-! The clauses of 8xy4 to 8xyE: an ordinary destination with a third register, x = 15, y = 15. -/

theorem test_hyp_AddRegSetsCarry :
    ((14 : Reg) ≠ 15 ∧ (0 : Reg) ≠ 14 ∧ (0 : Reg) ≠ 15) ∧ (15 : Reg) = 15 := by decide

theorem test_hyp_ShrShiftsVxRight :
    ((14 : Reg) ≠ 15 ∧ (0 : Reg) ≠ 14 ∧ (0 : Reg) ≠ 15) ∧ (15 : Reg) = 15 := by decide

theorem test_hyp_ShlShiftsVxLeft :
    ((14 : Reg) ≠ 15 ∧ (0 : Reg) ≠ 14 ∧ (0 : Reg) ≠ 15) ∧ (15 : Reg) = 15 := by decide

theorem test_hyp_SubRegSetsStrictGreater :
    ((14 : Reg) ≠ 15 ∧ (13 : Reg) ≠ 15 ∧ (0 : Reg) ≠ 14 ∧ (0 : Reg) ≠ 15) ∧
      ((15 : Reg) = 15 ∧ (14 : Reg) ≠ 15) ∧ ((14 : Reg) ≠ 15 ∧ (15 : Reg) = 15) := by decide

theorem test_hyp_SubnRegSetsStrictLess :
    ((14 : Reg) ≠ 15 ∧ (13 : Reg) ≠ 15 ∧ (0 : Reg) ≠ 14 ∧ (0 : Reg) ≠ 15) ∧
      ((15 : Reg) = 15 ∧ (14 : Reg) ≠ 15) ∧ ((14 : Reg) ≠ 15 ∧ (15 : Reg) = 15) := by decide

theorem test_hyp_RndMasksAFreeDraw : (0 : Byte) = 0 := rfl

/-- An x that is not 15, the two readings of the rows, a carry bit and a comparison both ways, and a y
that is not 15. -/
theorem test_hyp_OtherAliasReadings :
    (0 : Reg) ≠ 15 ∧ (14 : Reg) ≠ 15 ∧
      (VfReading.operandsFirst = .operandsFirst ∨ VfReading.operandsFirst = .flagLast) ∧
      (VfReading.flagLast = .operandsFirst ∨ VfReading.flagLast = .flagLast) ∧
      (let s := regs at200 [(0, 1), (15, 0x80)];
        (s.reg 15).toNat > (s.reg 0).toNat ∧ ¬(s.reg 0).toNat > (s.reg 15).toNat ∧
          2 * (s.reg 15).toNat > 255 ∧ ¬2 * (s.reg 0).toNat > 255) := by decide

/-- The last address that fits, addresses on both sides of the stored bytes. -/
theorem test_hyp_BcdStoresThreeDigits :
    let s : State := { at200 with I := 0xFFD }
    s.mem.wf ∧ indexAddr s + 2 < 4096 ∧ 0xFFC < indexAddr s ∧ indexAddr s + 2 < 0x1000 := by
  exact ⟨⟨List.Pairwise.nil, by simp [at200, State.reset]⟩, by decide⟩

theorem test_hyp_StRegsStoresTheBlock :
    let s : State := { at200 with I := 0xFF0 }
    s.mem.wf ∧ indexAddr s + (15 : Reg).val < 4096 ∧ (15 : Reg) ≤ 15 ∧ 0xFEF < indexAddr s ∧
      indexAddr s + (15 : Reg).val < 0x1000 := by
  exact ⟨⟨List.Pairwise.nil, by simp [at200, State.reset]⟩, by decide⟩

theorem test_hyp_LdRegsLoadsTheBlock :
    indexAddr { at200 with I := 0xFF0 } + (15 : Reg).val < 4096 ∧
      indexAddr { at200 with I := 0xFFF } + (0 : Reg).val < 4096 := by decide

theorem test_hyp_StoresOutsideMemoryFault :
    4096 ≤ indexAddr { at200 with I := 0xFFE } + 2 ∧
      4096 ≤ indexAddr { at200 with I := 0xFF1 } + (15 : Reg).val ∧
      4096 ≤ indexAddr { at200 with I := 0xFFFF } + (0 : Reg).val := by decide

theorem test_hyp_LoadsOutsideMemoryFault :
    4096 ≤ indexAddr { at200 with I := 0x1000 } + (0 : Reg).val ∧
      (1 ≤ (1 : Nibble).toNat ∧ 4096 ≤ indexAddr { at200 with I := 0x1000 } + (1 : Nibble).toNat - 1) ∧
      4096 ≤ indexAddr { at200 with I := 0xFF2 } + (15 : Nibble).toNat - 1 := by decide

theorem test_hyp_StoreThenLoadRestoresRegisters :
    let s : State := { at200 with I := 0x300 }
    ∃ t u : State, s.mem.wf ∧ indexAddr s + (2 : Reg).val < 4096 ∧ exec (.stRegs 2) s = .next t ∧
      u.mem = t.mem ∧ u.I = t.I :=
  ⟨_, _, ⟨List.Pairwise.nil, by simp [at200, State.reset]⟩, by decide, rfl, rfl, rfl⟩

/-- Every pixel of the start state is off. -/
theorem pix_off_at200 (x y : Nat) : pix at200.fb x y = false := by
  show pix blankScreen x y = false
  exact pix_blankScreen x y

/-- No row, a sprite at the last address, a covered pixel that is on, and none on. -/
theorem test_hyp_DrwTogglesTheCoveredPixels :
    (0 : Nibble).toNat = 0 ∧
    (let s := pixels (bytes { at200 with I := 0xFFF } 0xFFF [0x80]) [(0, 0)];
      indexAddr s + (1 : Nibble).toNat ≤ 4096 ∧ pix s.fb 0 0 = true ∧
        spriteCovers s 1 0 0 0 0 = true ∧ spriteCovers s 1 0 0 1 0 = false) ∧
    (let s := bytes { at200 with I := 0xFFF } 0xFFF [0x80];
      ∀ px py : Fin 32, spriteCovers s 1 0 0 px.val py.val = true → pix s.fb px.val py.val = false) := by
  refine ⟨rfl, by decide, ?_⟩
  intro s px py _
  exact pix_off_at200 px.val py.val

theorem test_hyp_DoubleDrawRestoresTheScreen :
    let s := bytes { at200 with I := 0x300 } 0x300 [0x80]
    ∃ t u : State, (1 : Reg) ≠ 15 ∧ (2 : Reg) ≠ 15 ∧ indexAddr s + (1 : Nibble).toNat ≤ 4096 ∧
      exec (.drw 1 2 1) s = .next t ∧ exec (.drw 1 2 1) t = .next u ∧
      pix s.fb 0 0 = false ∧ pix t.fb 0 0 = true :=
  ⟨_, _, by decide, by decide, by decide, rfl, rfl, by decide, by decide⟩

/-- The lowest and the highest slot. -/
theorem test_hyp_SkipOnKey :
    (at200.reg 1).toNat = (0 : Reg).val ∧
      ((regs at200 [(1, 15)]).reg 1).toNat = (15 : Reg).val := by decide

theorem test_hyp_KeyIndexAbove15Faults :
    15 < ((regs at200 [(1, 16)]).reg 1).toNat ∧ 15 < ((regs at200 [(1, 255)]).reg 1).toNat := by
  decide

/-- Two keys pressed, the lower one counts; and no key pressed. -/
theorem test_hyp_LdVxKWaitsForAKey :
    (let s := pressed at200 [0xB, 0xE];
      s.key[(0xB : Reg).val] = true ∧ ∀ j : Reg, j < 0xB → s.key[j.val] = false) ∧
    ∀ k : Reg, at200.key[k.val] = false := by decide

theorem test_hyp_TimerWritesSetOneTimer : at200.run = .running := rfl

/-- The longest program that fits, a byte of it, a font byte, and addresses that are neither. -/
theorem test_hyp_LoadWritesFontAndProgram :
    at200.mem.wf ∧ (List.replicate 3584 (1 : Byte)).length ≤ 3584 ∧
      3583 < (List.replicate 3584 (1 : Byte)).length ∧
      (¬(0x050 ≤ 0x04F ∧ 0x04F < 0x0A0) ∧ ¬(0x200 ≤ 0x04F ∧ 0x04F < 0x200 + 3584)) ∧
      ¬(0x050 ≤ 0x1FF ∧ 0x1FF < 0x0A0) ∧ ¬(0x200 ≤ 0x1FF ∧ 0x1FF < 0x200 + 3584) := by
  refine ⟨⟨List.Pairwise.nil, by simp [at200, State.reset]⟩, ?_⟩
  rw [List.length_replicate]
  decide

theorem test_hyp_LoadTooLongChangesNothing :
    3584 < (List.replicate 3585 (1 : Byte)).length := by
  rw [List.length_replicate]
  decide

end Sys2Proof.Tests
end

section
/-!
PROOFS. Decoding against the mask table of spec/30_encoding.md R76: the word of a decoded instruction is
the word decoded, and a word with a row's fixed nibbles decodes to an instruction of that row.
-/

namespace Sys2Proof

/-! The word of what was decoded -/

/-- Format A put together again from the nibbles of its address. -/
theorem encA_nnnOf (n1 n2 n3 n4 : Nibble) : encA n1 (nnnOf n2 n3 n4) = ofNibbles n1 n2 n3 n4 := by
  simp [encA]

/-- Format XK put together again from the nibbles of its operands. -/
theorem encXK_kkOf (n1 n2 n3 n4 : Nibble) :
    encXK n1 (regOf n2) (kkOf n3 n4) = ofNibbles n1 n2 n3 n4 := by
  simp [encXK]

/-- Formats XY and XYN put together again from the nibbles of their registers. -/
theorem encXY_regOf (n1 n2 n3 n4 : Nibble) :
    encXY n1 (regOf n2) (regOf n3) n4 = ofNibbles n1 n2 n3 n4 := rfl

theorem encode_of_decode0 {n2 n3 n4 : Nibble} {i : Instr} (h : decode0 n2 n3 n4 = some i) :
    encode i = ofNibbles 0x0 n2 n3 n4 := by
  unfold decode0 at h
  split_ifs at h with hcls hret
  · obtain ⟨rfl, rfl, rfl⟩ := hcls
    cases h
    rfl
  · obtain ⟨rfl, rfl, rfl⟩ := hret
    cases h
    rfl

theorem encode_of_decode8 {x y : Reg} {n4 : Nibble} {i : Instr} (h : decode8 x y n4 = some i) :
    encode i = encXY 0x8 x y n4 := by
  unfold decode8 at h
  split_ifs at h <;> (cases h; subst n4; rfl)

theorem encode_of_decodeE {x : Reg} {kk : Byte} {i : Instr} (h : decodeE x kk = some i) :
    encode i = encXK 0xE x kk := by
  unfold decodeE at h
  split_ifs at h <;> (cases h; subst kk; rfl)

theorem encode_of_decodeF {x : Reg} {kk : Byte} {i : Instr} (h : decodeF x kk = some i) :
    encode i = encXK 0xF x kk := by
  unfold decodeF at h
  split_ifs at h <;> (cases h; subst kk; rfl)

/-- No family of the decoder drops a nibble: one case for each value of d1, in the order
0x0 to 0xF. -/
theorem encode_of_decodeNibbles {n1 n2 n3 n4 : Nibble} {i : Instr}
    (h : decodeNibbles n1 n2 n3 n4 = some i) : encode i = ofNibbles n1 n2 n3 n4 := by
  obtain ⟨k⟩ := n1
  fin_cases k
  · exact encode_of_decode0 h
  · cases h; exact encA_nnnOf ..
  · cases h; exact encA_nnnOf ..
  · cases h; exact encXK_kkOf ..
  · cases h; exact encXK_kkOf ..
  · obtain ⟨rfl, hi⟩ := Option.ite_none_right_eq_some.mp h
    cases hi; exact encXY_regOf ..
  · cases h; exact encXK_kkOf ..
  · cases h; exact encXK_kkOf ..
  · exact encode_of_decode8 h
  · obtain ⟨rfl, hi⟩ := Option.ite_none_right_eq_some.mp h
    cases hi; exact encXY_regOf ..
  · cases h; exact encA_nnnOf ..
  · cases h; exact encA_nnnOf ..
  · cases h; exact encXK_kkOf ..
  · cases h; exact encXY_regOf ..
  · exact (encode_of_decodeE h).trans (encXK_kkOf ..)
  · exact (encode_of_decodeF h).trans (encXK_kkOf ..)

theorem encode_of_decodeWord {op : Word} {i : Instr} (h : decodeWord op = some i) : encode i = op :=
  (encode_of_decodeNibbles h).trans (ofNibbles_eta op)

/-- A decoded word has the fixed bits of its instruction's row. -/
theorem matchesOp_of_decodeWord {op : Word} {i : Instr} (h : decodeWord op = some i) :
    i.pattern.matchesOp op = true := by
  obtain ⟨-, hmatch⟩ := Laws.encoding_of_every_instr i
  rwa [encode_of_decodeWord h] at hmatch

/-! The decoding of a word with a row's fixed nibbles -/

theorem Pattern.matchesOp_iff (p : Pattern) (op : Word) :
    p.matchesOp op = true ↔ op &&& p.mask = p.value := beq_iff_eq

theorem decodeWord_ofNibbles (n1 n2 n3 n4 : Nibble) :
    decodeWord (ofNibbles n1 n2 n3 n4) = decodeNibbles n1 n2 n3 n4 := by
  simp [decodeWord]

/-- A row with d1 fixed: the other nibbles are the opcode's own. -/
theorem eq_of_mask_F000 {op value : Word} (h : op &&& 0xF000 = value) :
    op = ofNibbles (d1 value) (d2 op) (d3 op) (d4 op) := by
  rw [← h, d1_and, show d1 0xF000 = 15#4 from rfl, Laws.and_full, ofNibbles_eta]

/-- A row with d1 and d4 fixed. -/
theorem eq_of_mask_F00F {op value : Word} (h : op &&& 0xF00F = value) :
    op = ofNibbles (d1 value) (d2 op) (d3 op) (d4 value) := by
  rw [← h, d1_and, d4_and, show d1 0xF00F = 15#4 from rfl, show d4 0xF00F = 15#4 from rfl,
    Laws.and_full, Laws.and_full, ofNibbles_eta]

/-- A row with d1 and the low byte fixed. -/
theorem eq_of_mask_F0FF {op value : Word} (h : op &&& 0xF0FF = value) :
    op = ofNibbles (d1 value) (d2 op) (d3 value) (d4 value) := by
  rw [← h, d1_and, d3_and, d4_and, show d1 0xF0FF = 15#4 from rfl,
    show d3 0xF0FF = 15#4 from rfl, show d4 0xF0FF = 15#4 from rfl,
    Laws.and_full, Laws.and_full, Laws.and_full, ofNibbles_eta]

/-- A row with every bit fixed. -/
theorem eq_of_mask_FFFF {op value : Word} (h : op &&& 0xFFFF = value) : op = value :=
  BitVec.and_allOnes.symm.trans h

/-- One case for each mask of R76: with the row's nibbles in place the decoder computes. -/
theorem pattern_decodeWord_of_matchesOp {op : Word} {j : Instr}
    (h : j.pattern.matchesOp op = true) : (decodeWord op).map Instr.pattern = some j.pattern := by
  rw [Pattern.matchesOp_iff] at h
  cases j with
  | cls | ret =>
    rw [eq_of_mask_FFFF h]
    rfl
  | jp | call | seImm | sneImm | ldImm | addImm | ldI | jpV0 | rnd | drw =>
    dsimp only [Instr.pattern] at h ⊢
    rw [eq_of_mask_F000 h, decodeWord_ofNibbles]
    rfl
  | seReg | ldReg | orReg | andReg | xorReg | addReg | subReg | shr | subnReg | shl | sneReg =>
    dsimp only [Instr.pattern] at h ⊢
    rw [eq_of_mask_F00F h, decodeWord_ofNibbles]
    rfl
  | skp | sknp | ldVxDT | ldVxK | ldDTVx | ldSTVx | addIVx | ldFVx | ldBVx | stRegs | ldRegs =>
    dsimp only [Instr.pattern] at h ⊢
    rw [eq_of_mask_F0FF h, decodeWord_ofNibbles]
    rfl

/-- Settles O3: a matching word decodes in its row, and a decoded word matches its own row, which is
row `j` when the patterns agree. -/
theorem decodeFollowsTheMaskTable : Obligations.DecodeFollowsTheMaskTable := by
  intro op j
  constructor
  · intro hmatch
    exact Option.map_eq_some_iff.mp (pattern_decodeWord_of_matchesOp hmatch)
  · rintro ⟨i, hdec, hrow⟩
    exact hrow ▸ matchesOp_of_decodeWord hdec

end Sys2Proof

/-!
PROOFS. The step of an opcode that matches no pattern (spec/30_encoding.md R75).
-/

namespace Sys2Proof.Machine

/-- The converse of `fetch_ok`: inside memory the fetch answers the two bytes. -/
theorem fetch_eq_ok {s : State} (h : (fetchAddr s).toNat + 1 < Config.memSize) :
    fetch s = .ok (wordOfBytes (s.mem.read (fetchAddr s).toNat)
      (s.mem.read ((fetchAddr s).toNat + 1))) := if_pos h

/-- The no-op branch of the step. -/
theorem step_of_decodeWord_none {s : State} {op : Word} (hrun : s.run = .running)
    (hfetch : fetch s = .ok op) (hdec : decodeWord op = none) :
    step s = .next (timerStage s.advance) := by
  simp only [step, hrun, hfetch, hdec, stepNoOp, execNoOp]

/-- A timer's count as truncated subtraction, as a byte. -/
theorem countDown_eq (t : Timer) : countDown t = BitVec.ofNat 8 (t.toNat - 1) := by
  apply BitVec.eq_of_toNat_eq
  rw [countDown_toNat, BitVec.toNat_ofNat, Nat.mod_eq_of_lt (by omega)]

/-- Settles O7: the bytes at the fetch address are the fetched word, so the step is the no-op: the
advanced state after the timer stage. -/
theorem unmatchedOpcodeIsNoOp : Obligations.UnmatchedOpcodeIsNoOp := by
  intro s hrun haddr hdec
  rw [step_of_decodeWord_none hrun (fetch_eq_ok haddr) hdec, ← countDown_eq, ← countDown_eq]
  rfl

end Sys2Proof.Machine
end

/-!
PROOFS. The frame of every instruction, as rules over the state's updates: an update of a part that
may change is no change to the rest (spec/10_state.md R20 to R35).
-/

namespace Sys2Proof.Machine

section
variable {ps : List Part} {s t : State}

@[simp] theorem OnlyChanges.refl : OnlyChanges ps s s := by
  intro p _
  cases p <;> simp [Part.same]

/-- An update that leaves every part beside `q` alone is not seen where `q` may change.  For the
model's own updates the second premise is read off the parts, one by one. -/
theorem onlyChanges_congr {q : Part} {u : State} (hq : q ∈ ps)
    (h : ∀ p, p ≠ q → (p.same s u ↔ p.same s t) := by
      intro p hp
      cases p <;> simp_all [Part.same]) :
    OnlyChanges ps s u ↔ OnlyChanges ps s t :=
  forall_congr' fun p => imp_congr_right fun hp => h p (ne_of_mem_of_not_mem hq hp).symm

@[simp] theorem onlyChanges_setReg {r : Reg} {v : Byte} (h : .V ∈ ps) :
    OnlyChanges ps s (t.setReg r v) ↔ OnlyChanges ps s t := onlyChanges_congr h

@[simp] theorem onlyChanges_setVF {v : Byte} (h : .V ∈ ps) :
    OnlyChanges ps s (t.setVF v) ↔ OnlyChanges ps s t := onlyChanges_setReg h

@[simp] theorem onlyChanges_setRegs {V : RegFile} (h : .V ∈ ps) :
    OnlyChanges ps s (t.setRegs V) ↔ OnlyChanges ps s t := onlyChanges_congr h

@[simp] theorem onlyChanges_setI {v : IndexWord} (h : .I ∈ ps) :
    OnlyChanges ps s (t.setI v) ↔ OnlyChanges ps s t := onlyChanges_congr h

@[simp] theorem onlyChanges_setPc {v : PcWord} (h : .pc ∈ ps) :
    OnlyChanges ps s (t.setPc v) ↔ OnlyChanges ps s t := onlyChanges_congr h

@[simp] theorem onlyChanges_advance (h : .pc ∈ ps) :
    OnlyChanges ps s t.advance ↔ OnlyChanges ps s t := onlyChanges_setPc h

@[simp] theorem onlyChanges_skipIf {c : Bool} (h : .pc ∈ ps) :
    OnlyChanges ps s (t.skipIf c) ↔ OnlyChanges ps s t := by
  cases c
  · rfl
  · exact onlyChanges_setPc h

@[simp] theorem onlyChanges_setStack {st : CallStack} (h : .stack ∈ ps) :
    OnlyChanges ps s (t.setStack st) ↔ OnlyChanges ps s t := onlyChanges_congr h

@[simp] theorem onlyChanges_setSp {v : StackPtr} (h : .sp ∈ ps) :
    OnlyChanges ps s (t.setSp v) ↔ OnlyChanges ps s t := onlyChanges_congr h

@[simp] theorem onlyChanges_setDT {v : Timer} (h : .DT ∈ ps) :
    OnlyChanges ps s (t.setDT v) ↔ OnlyChanges ps s t := onlyChanges_congr h

@[simp] theorem onlyChanges_setST {v : Timer} (h : .ST ∈ ps) :
    OnlyChanges ps s (t.setST v) ↔ OnlyChanges ps s t := onlyChanges_congr h

@[simp] theorem onlyChanges_setScreen {f : Screen} (h : .fb ∈ ps) :
    OnlyChanges ps s (t.setScreen f) ↔ OnlyChanges ps s t := onlyChanges_congr h

@[simp] theorem onlyChanges_setMem {m : Memory} (h : .mem ∈ ps) :
    OnlyChanges ps s (t.setMem m) ↔ OnlyChanges ps s t := onlyChanges_congr h

@[simp] theorem onlyChanges_countDraw (h : .draws ∈ ps) :
    OnlyChanges ps s t.countDraw ↔ OnlyChanges ps s t := onlyChanges_congr h

@[simp] theorem onlyChanges_enterFault {op : Word} {e : Raise} (h : .fault ∈ ps) :
    OnlyChanges ps s (t.enterFault op e) ↔ OnlyChanges ps s t := onlyChanges_congr h

/-- Under every reading the flag instructions write registers only (42_alu.md R139). -/
@[simp] theorem onlyChanges_writeFlagged {rd : VfReading} {flag result : Byte → Byte → Byte}
    {x y : Reg} (h : .V ∈ ps) :
    OnlyChanges ps s (writeFlagged rd flag result x y t) ↔ OnlyChanges ps s t := by
  cases rd <;> simp [writeFlagged, flagThenReread, flagThenResult, resultThenFlag, h]

/-- 8xy4 likewise (42_alu.md R147). -/
@[simp] theorem onlyChanges_writeCarry {rd : VfReading} {flag result : Byte → Byte → Byte}
    {x y : Reg} (h : .V ∈ ps) :
    OnlyChanges ps s (writeCarry rd flag result x y t) ↔ OnlyChanges ps s t := by
  cases rd <;> simp [writeCarry, flagThenResult, resultThenFlag, h]

@[simp] theorem onlyChanges_drawSprite {x y : Reg} {bs : List Byte} (hV : .V ∈ ps)
    (hfb : .fb ∈ ps) : OnlyChanges ps s (drawSprite t x y bs) ↔ OnlyChanges ps s t := by
  simp [drawSprite, hV, hfb]

/-- A block write that completes writes memory only. -/
theorem onlyChanges_of_writeBytes {addr : Nat} {bs : List Byte} {u : State} (hm : .mem ∈ ps)
    (h : writeBytes t addr bs = .ok u) : OnlyChanges ps s u ↔ OnlyChanges ps s t := by
  rcases writeBytes_cases t addr bs with ⟨hok, -⟩ | ⟨e, herr, -⟩
  · rw [hok] at h
    cases h
    exact onlyChanges_setMem hm
  · rw [herr] at h
    cases h

/-- An execute stage that may raise keeps the frame of its working copy: a fault entry changes only
the run state and the fault record (60_exceptions.md R232). -/
theorem onlyChanges_of_settle {i : Instr} {r : Except Raise State} (hf : .fault ∈ ps)
    (h : settle i s r = .next t) (hok : ∀ u, r = .ok u → OnlyChanges ps s u) :
    OnlyChanges ps s t := by
  cases r with
  | ok u =>
    cases h
    exact hok t rfl
  | error e =>
    cases h
    exact (onlyChanges_enterFault hf).mpr OnlyChanges.refl

end

/-- Beside `pc` and the fault state an instruction changes only the parts it may write. -/
theorem exec_onlyChanges {i : Instr} {s t : State} (h : exec i s = .next t) :
    OnlyChanges (.pc :: .fault :: mayWrite i) s t := by
  cases i with
  | ret =>
    simp only [exec, execRet] at h
    split at h
    · cases h
      simp
    · split at h
      · cases h
        simp [mayWrite]
      · cases h
  | call nnn =>
    simp only [exec, execCall] at h
    split at h
    · cases h
      simp
    · split at h
      · cases h
        simp [mayWrite]
      · cases h
  | ldVxK x =>
    simp only [exec, execLdVxK] at h
    split at h <;> (cases h; simp [mayWrite])
  | ldBVx x | stRegs x =>
    refine onlyChanges_of_settle (by simp) h fun u hu => ?_
    rw [onlyChanges_of_writeBytes (by simp [mayWrite]) hu]
    simp
  | drw x y n | skp x | sknp x | ldRegs x =>
    refine onlyChanges_of_settle (by simp) h fun u hu => ?_
    split at hu <;> cases hu
    simp [mayWrite]
  | _ =>
    cases h
    simp [mayWrite]

end Sys2Proof.Machine

/-!
PROOFS. The timers over one step (spec/40_step_cycle.md R107).
-/

namespace Sys2Proof.Machine

/-- A step of a running state that ends RUNNING is the timer stage after a completed execute stage: the
no-op's, or the decoded instruction's. -/
theorem step_cases_of_running {s t : State} (hrun : s.run = .running) (hstep : step s = .next t)
    (hend : t.run = .running) :
    ∃ op u, fetch s = .ok op ∧ t = timerStage u ∧
      ((decodeWord op = none ∧ u = s.advance) ∨
        ∃ i, decodeWord op = some i ∧ exec i s = .next u) := by
  rcases step_cases hstep with ⟨hr, -⟩ | ⟨e, -, -, rfl⟩ | ⟨op, -, hop, hdec, rfl⟩ |
    ⟨op, i, -, hop, hdec, hret⟩
  · simp [hrun] at hr
  · simp at hend
  · exact ⟨op, _, hop, rfl, .inl ⟨hdec, rfl⟩⟩
  · obtain ⟨u, hexec, ⟨hu, rfl⟩ | ⟨-, rfl⟩⟩ := retire_cases hret
    · simp [hu] at hend
    · exact ⟨op, u, hop, rfl, .inr ⟨i, hdec, hexec⟩⟩

/-- Only Fx15 may write DT (10_state.md R30). -/
theorem mem_mayWrite_DT {i : Instr} : .DT ∈ mayWrite i ↔ ∃ x, i = .ldDTVx x := by
  cases i <;> simp [mayWrite]

/-- Only Fx18 may write ST (10_state.md R31). -/
theorem mem_mayWrite_ST {i : Instr} : .ST ∈ mayWrite i ↔ ∃ x, i = .ldSTVx x := by
  cases i <;> simp [mayWrite]

theorem exec_DT_of_ne {i : Instr} {s t : State} (h : exec i s = .next t)
    (hi : ∀ x, i ≠ .ldDTVx x) : t.DT = s.DT :=
  exec_onlyChanges h .DT (by simp [mem_mayWrite_DT, hi])

theorem exec_ST_of_ne {i : Instr} {s t : State} (h : exec i s = .next t)
    (hi : ∀ x, i ≠ .ldSTVx x) : t.ST = s.ST :=
  exec_onlyChanges h .ST (by simp [mem_mayWrite_ST, hi])

/-- Settles O11: the step ends with the timer stage, which counts down what the execute stage left:
the register under Fx15 or Fx18, else the timer itself by the frame of the instruction. -/
theorem timersCountDownOncePerStep : Obligations.TimersCountDownOncePerStep := by
  intro s t hrun hstep hend
  obtain ⟨op, u, hop, rfl, ⟨hdec, rfl⟩ | ⟨i, hdec, hexec⟩⟩ :=
    step_cases_of_running hrun hstep hend
  · refine ⟨op, hop, ?_, ?_⟩ <;> simp [hdec, countDown_toNat]
  · refine ⟨op, hop, ?_, ?_⟩
    · rw [hdec, timerStage_DT, countDown_toNat]
      split
      · next x hx =>
        cases hx
        cases hexec
        rfl
      · next hne => rw [exec_DT_of_ne hexec fun x hx => hne x (congrArg some hx)]
    · rw [hdec, timerStage_ST, countDown_toNat]
      split
      · next x hx =>
        cases hx
        cases hexec
        rfl
      · next hne => rw [exec_ST_of_ne hexec fun x hx => hne x (congrArg some hx)]

end Sys2Proof.Machine

/-!
PROOFS. The instructions that write `pc` and nothing else: the jump and the skips
(spec/41_control_flow.md R123, R125 to R128).
-/

namespace Sys2Proof.Machine

/-- The mask and match of an instruction's row of R76, as masked bits of its opcode. -/
theorem encodedAs_pattern (i : Instr) : EncodedAs i i.pattern.mask i.pattern.value := by
  obtain ⟨-, hmatch⟩ := Laws.encoding_of_every_instr i
  exact (Pattern.matchesOp_iff _ _).mp hmatch

/-- The jump target as a number: zero extension keeps the 12-bit address. -/
theorem jumpTarget_toNat (nnn : Addr) : (jumpTarget nnn).toNat = nnn.toNat :=
  BitVec.toNat_setWidth_of_le (by decide)

/-- Settles O22: the jump replaces the advanced `pc`, the only part written. -/
theorem jpSetsPc : Obligations.JpSetsPc := fun nnn s =>
  ⟨encodedAs_pattern (.jp nnn), _, rfl, by simp, jumpTarget_toNat nnn⟩

/-- Both increments of `pc` are added to the fetch address, with no wrap between them (R121). -/
theorem advance_skipIf_pc (s : State) (c : Bool) :
    (s.advance.skipIf c).pc = fetchAddr s + if c then 4 else 2 := by
  cases c with
  | false => rfl
  | true => exact BitVec.add_assoc ..

/-- An instruction that skips on the condition `c`: what it answers, in the words of R125 to R128. -/
theorem exec_of_skipIf {i : Instr} {s : State} {c : Bool}
    (h : exec i s = .next (s.advance.skipIf c)) :
    ∃ t : State, exec i s = .next t ∧ OnlyChanges [.pc] s t ∧
      t.pc = fetchAddr s + if c then 4 else 2 :=
  ⟨_, h, by simp, advance_skipIf_pc s c⟩

/-- Settles O26: both are skips, on equality with the immediate and on its negation. -/
theorem skipOnImmediate : Obligations.SkipOnImmediate := by
  intro x kk s
  refine ⟨encodedAs_pattern (.seImm x kk), encodedAs_pattern (.sneImm x kk), ?_, ?_⟩
  · have hskip : exec (.seImm x kk) s = .next (s.advance.skipIf (s.reg x == kk)) := rfl
    simpa using exec_of_skipIf hskip
  · have hskip : exec (.sneImm x kk) s = .next (s.advance.skipIf (s.reg x != kk)) := rfl
    simpa using exec_of_skipIf hskip

/-- The families 5 and 9 hold one row each, with d4 = 0 fixed (30_encoding.md R76). -/
theorem decodeWord_eq_none_of_d4_ne {op : Word} (hfam : d1 op = 0x5 ∨ d1 op = 0x9)
    (hd4 : d4 op ≠ 0x0) : decodeWord op = none := by
  rcases hfam with h5 | h9
  · rw [decodeWord, h5]
    exact if_neg hd4
  · rw [decodeWord, h9]
    exact if_neg hd4

/-- Settles O27: both are skips, on equality of the registers and on its negation; the decoder tests
d4 in the two families. -/
theorem skipOnRegisters : Obligations.SkipOnRegisters := by
  refine ⟨fun x y s => ⟨encodedAs_pattern (.seReg x y), encodedAs_pattern (.sneReg x y), ?_, ?_⟩,
    fun op => decodeWord_eq_none_of_d4_ne⟩
  · have hskip : exec (.seReg x y) s = .next (s.advance.skipIf (s.reg x == s.reg y)) := rfl
    simpa using exec_of_skipIf hskip
  · have hskip : exec (.sneReg x y) s = .next (s.advance.skipIf (s.reg x != s.reg y)) := rfl
    simpa using exec_of_skipIf hskip

end Sys2Proof.Machine

/-!
PROOFS. The instructions that write one register and no flag (spec/42_alu.md R141 to R146).
-/

namespace Sys2Proof.Machine

/-- A register written on the advanced working copy is the whole effect of 6xkk to 8xy3. -/
theorem regWrite_advance_setReg (s : State) (x : Reg) (v : Byte) :
    RegWrite s (s.advance.setReg x v) x v :=
  ⟨by simp, rfl, by simp⟩

/-- Settles O29: the immediate is the byte written. -/
theorem ldImmWritesTheRegister : Obligations.LdImmWritesTheRegister := fun x kk s =>
  ⟨encodedAs_pattern (.ldImm x kk), _, rfl, regWrite_advance_setReg s x kk⟩

/-- Settles O30: the byte written is the sum of two bytes, which wraps at 256. -/
theorem addImmWrapsWithoutFlag : Obligations.AddImmWrapsWithoutFlag := fun x kk s =>
  ⟨encodedAs_pattern (.addImm x kk), _, _, rfl, regWrite_advance_setReg s x _,
    BitVec.toNat_add (s.reg x) kk⟩

/-- Settles O31: the byte written is V[y] as it was before the step. -/
theorem ldRegCopies : Obligations.LdRegCopies := fun x y s =>
  ⟨encodedAs_pattern (.ldReg x y), _, rfl, regWrite_advance_setReg s x (s.reg y)⟩

/-- Settles O32: each writes one byte, the bitwise operation of the two old registers. -/
theorem logicActsBitByBit : Obligations.LogicActsBitByBit := by
  intro x y s
  refine ⟨⟨encodedAs_pattern (.orReg x y), _, _, rfl, regWrite_advance_setReg s x _, fun k => ?_⟩,
    ⟨encodedAs_pattern (.andReg x y), _, _, rfl, regWrite_advance_setReg s x _, fun k => ?_⟩,
    ⟨encodedAs_pattern (.xorReg x y), _, _, rfl, regWrite_advance_setReg s x _, fun k => ?_⟩⟩
  · exact BitVec.getLsbD_or
  · exact BitVec.getLsbD_and
  · exact BitVec.getLsbD_xor

end Sys2Proof.Machine

/-!
PROOFS. The index register (spec/43_index_memory.md R170).
-/

namespace Sys2Proof.Machine

/-- Settles O40: I is written on the advanced working copy, and zero extension keeps the 12-bit
address. -/
theorem ldISetsTheIndex : Obligations.LdISetsTheIndex := by
  intro nnn s
  have hframe : OnlyChanges [.I, .pc] s (s.advance.setI nnn.zext) := by simp
  have hindex : nnn.zext.toNat = nnn.toNat := BitVec.toNat_setWidth_of_le (by decide)
  exact ⟨encodedAs_pattern (.ldI nnn), _, rfl, hframe, rfl, hindex⟩

end Sys2Proof.Machine

/-!
PROOFS. The display (spec/44_display.md R191).
-/

namespace Sys2Proof.Machine

/-- Settles O49: the blank screen replaces the framebuffer of the advanced working copy, and `exec`
answers that copy from every state. -/
theorem clsClearsEveryPixel : Obligations.ClsClearsEveryPixel := by
  refine ⟨encodedAs_pattern .cls, fun s => ?_⟩
  have hframe : OnlyChanges [.fb, .pc] s (s.advance.setScreen blankScreen) := by simp
  exact ⟨_, rfl, hframe, rfl, pix_blankScreen⟩

end Sys2Proof.Machine

/-!
PROOFS. Encoding, then decoding (spec/30_encoding.md R70 to R77): the decoder reads back every
opcode the encoder writes, and the words it does not read are those of R77.
-/

namespace Sys2Proof

/-! The word and the bytes of an instruction -/

/-- Format A read back: every nibble of the address is kept (R73). -/
theorem decodeWord_encA (n1 : Nibble) (nnn : Addr) :
    decodeWord (encA n1 nnn) =
      decodeNibbles n1 (nnn.extractLsb' 8 4) (nnn.extractLsb' 4 4) (nnn.extractLsb' 0 4) :=
  decodeWord_ofNibbles ..

/-- Format XK read back (R73). -/
theorem decodeWord_encXK (n1 : Nibble) (x : Reg) (kk : Byte) :
    decodeWord (encXK n1 x kk) =
      decodeNibbles n1 (nibbleOf x) (kk.extractLsb' 4 4) (kk.extractLsb' 0 4) :=
  decodeWord_ofNibbles ..

/-- Formats XY and XYN read back (R73). -/
theorem decodeWord_encXY (n1 : Nibble) (x y : Reg) (n4 : Nibble) :
    decodeWord (encXY n1 x y n4) = decodeNibbles n1 (nibbleOf x) (nibbleOf y) n4 :=
  decodeWord_ofNibbles ..

/-- One case for each format of R73: with the opcode's nibbles in place the family of d1 computes,
and a whole operand is put together again from its nibbles. -/
theorem decodeWord_encode (i : Instr) : decodeWord (encode i) = some i := by
  cases i with
  | cls | ret => rfl
  | jp nnn | call nnn | ldI nnn | jpV0 nnn =>
    exact (decodeWord_encA ..).trans (by simp [decodeNibbles])
  | seImm x kk | sneImm x kk | ldImm x kk | addImm x kk | rnd x kk =>
    exact (decodeWord_encXK ..).trans (by simp [decodeNibbles])
  | seReg x y | ldReg x y | orReg x y | andReg x y | xorReg x y | addReg x y | subReg x y | shr x y
  | subnReg x y | shl x y | sneReg x y | drw x y n => exact decodeWord_encXY ..
  | skp x | sknp x | ldVxDT x | ldVxK x | ldDTVx x | ldSTVx x | addIVx x | ldFVx x | ldBVx x
  | stRegs x | ldRegs x => exact decodeWord_encXK ..

/-- The two bytes of a word, high byte first, are the word (20_memory.md R58). -/
theorem wordOfBytes_extract (op : Word) :
    wordOfBytes (op.extractLsb' 8 8) (op.extractLsb' 0 8) = op := by
  apply BitVec.eq_of_getLsbD_eq
  intro k hk
  simp only [wordOfBytes, BitVec.getLsbD_append, BitVec.getLsbD_extractLsb']
  by_cases hlow : k < 8
  · simp [hlow]
  · simp [hlow, show k - 8 < 8 by omega, show 8 + (k - 8) = k by omega]

/-- The byte decoder takes two bytes and leaves the rest when their word decodes. -/
theorem decode_of_decodeWord {hi lo : Byte} {i : Instr} (rest : List Byte)
    (h : decodeWord (wordOfBytes hi lo) = some i) : decode (hi :: lo :: rest) = .ok (i, rest) := by
  rw [decode, h]

/-- Settles O1: the operand types hold only fitting numbers, the word decodes format by format, and
the two bytes are that word. -/
theorem decodeOfEncodeIsTheInstruction : Obligations.DecodeOfEncodeIsTheInstruction := by
  intro i rest
  obtain ⟨hwf, -⟩ := Laws.encoding_of_every_instr i
  have hword := decodeWord_encode i
  refine ⟨hwf, hword, decode_of_decodeWord rest ?_⟩
  rwa [wordOfBytes_extract]

/-- Settles O2: no family of the decoder drops a nibble. -/
theorem encodeOfDecodeIsTheOpcode : Obligations.EncodeOfDecodeIsTheOpcode :=
  fun _ _ => encode_of_decodeWord

/-! The unmatched words -/

theorem decode0_eq_none_iff {op : Word} (h0 : d1 op = 0x0) :
    decode0 (d2 op) (d3 op) (d4 op) = none ↔ op ≠ 0x00E0 ∧ op ≠ 0x00EE := by
  have hop : ∀ a b c : Nibble, op = ofNibbles 0x0 a b c ↔ d2 op = a ∧ d3 op = b ∧ d4 op = c := by
    intro a b c
    constructor
    · rintro rfl
      simp
    · rintro ⟨rfl, rfl, rfl⟩
      rw [← h0, ofNibbles_eta]
  have hcls := hop 0x0 0xE 0x0
  have hret := hop 0x0 0xE 0xE
  rw [show ofNibbles 0x0 0x0 0xE 0x0 = 0x00E0 from rfl] at hcls
  rw [show ofNibbles 0x0 0x0 0xE 0xE = 0x00EE from rfl] at hret
  rw [Ne, Ne, hcls, hret, decode0]
  split_ifs <;> simp_all

theorem decode8_eq_none_iff (x y : Reg) (n4 : Nibble) :
    decode8 x y n4 = none ↔ n4 ∈ [0x8, 0x9, 0xA, 0xB, 0xC, 0xD, 0xF] := by
  obtain ⟨k⟩ := n4
  fin_cases k <;> simp [decode8]

theorem decodeE_eq_none_iff (x : Reg) (kk : Byte) : decodeE x kk = none ↔ kk ∉ [0x9E, 0xA1] := by
  rw [decodeE]
  split_ifs <;> simp_all

theorem decodeF_eq_none_iff (x : Reg) (kk : Byte) :
    decodeF x kk = none ↔ kk ∉ [0x07, 0x0A, 0x15, 0x18, 0x1E, 0x29, 0x33, 0x55, 0x65] := by
  rw [decodeF]
  split_ifs <;> simp_all

/-- Settles O4: one case for each value of d1, in the order 0x0 to 0xF; only six of the families
leave a word unmatched. -/
theorem unmatchedWordsAreTheListedOnes : Obligations.UnmatchedWordsAreTheListedOnes := by
  intro op
  have h0 := @decode0_eq_none_iff op
  rw [decodeWord]
  generalize d1 op = n1 at h0 ⊢
  obtain ⟨k⟩ := n1
  fin_cases k
  · simpa [decodeNibbles] using h0 rfl
  all_goals simp [decodeNibbles, decode8_eq_none_iff, decodeE_eq_none_iff, decodeF_eq_none_iff]

/-- Settles O5: the decoder computes on closed words. -/
theorem sampleWordsDecode : Obligations.SampleWordsDecode := by
  unfold Obligations.SampleWordsDecode
  decide

end Sys2Proof

/-!
PROOFS. The step around the instruction (spec/40_step_cycle.md R100 to R109) and its faults
(spec/60_exceptions.md R230 to R233).
-/

namespace Sys2Proof.Machine

/-- A fetch address at the end of memory or above raises the fetch fault (R102). -/
theorem fetch_eq_error {s : State} (h : Config.memSize ≤ (fetchAddr s).toNat + 1) :
    fetch s = .error ⟨.fetchOutOfRange, fetchAddr s⟩ := if_neg (by omega)

theorem step_of_faulted {s : State} (h : s.run = .faulted) : step s = .next s := by
  rw [step, h]

theorem step_of_fetch_error {s : State} {e : Raise} (hrun : s.run = .running)
    (hfetch : fetch s = .error e) : step s = .next (s.enterFault 0 e) := by
  simp only [step, hrun, hfetch, stepFetchFault]

theorem step_of_decodeWord_some {s : State} {op : Word} {i : Instr} (hrun : s.run = .running)
    (hfetch : fetch s = .ok op) (hdec : decodeWord op = some i) : step s = retire (exec i s) := by
  simp only [step, hrun, hfetch, hdec]

/-- Settles O6: the instruction branch of the step, the wrap of exactly 4096, and the first byte in
the high half of the opcode. -/
theorem stepRunsTheDecodedInstruction : Obligations.StepRunsTheDecodedInstruction := by
  refine ⟨fun s i hrun haddr hdec => ?_, fun s => ?_, fun hi lo => ?_⟩
  · rw [step_of_decodeWord_some hrun (fetch_eq_ok haddr) hdec]
    cases exec i s <;> rfl
  · have hwrap : s.pc = 4096#16 ↔ s.pc.toNat = 4096 := BitVec.toNat_inj.symm
    simp [fetchAddr, hwrap]
  · have hshift := Nat.shiftLeft_add_eq_or_of_lt lo.isLt hi.toNat
    rw [wordOfBytes, BitVec.toNat_append, ← hshift, Nat.shiftLeft_eq]

/-- Settles O8: the fetch raises, and the step answers its fault entry with `fop` zero. -/
theorem fetchOutsideMemoryFaults : Obligations.FetchOutsideMemoryFaults := fun _ hrun haddr =>
  step_of_fetch_error hrun (fetch_eq_error haddr)

/-- Settles O9, by induction on the number of steps: the faulted state is its own next state. -/
theorem faultedStateIsSticky : Obligations.FaultedStateIsSticky := by
  intro s n hrun
  induction n with
  | zero => rfl
  | succ n ih => exact (run_of_step n (step_of_faulted hrun)).trans ih

/-- Settles O10: of the four ways a step can end, only the fetch fault and the instruction's own
fault entry leave the running state. -/
theorem faultingStepIsPrecise : Obligations.FaultingStepIsPrecise := by
  intro s t hrun hstep hend
  rcases step_cases hstep with ⟨hr, -⟩ | ⟨e, -, hfetch, rfl⟩ | ⟨op, -, -, -, rfl⟩ |
    ⟨op, i, -, hop, hdec, hret⟩
  · simp [hrun] at hr
  · obtain ⟨rfl, haddr⟩ := fetch_error hfetch
    exact ⟨1, 0, fetchAddr s, rfl, by decide, by decide, .inl ⟨rfl, rfl, rfl, haddr⟩⟩
  · simp [hrun] at hend
  · obtain ⟨u, hexec, ⟨-, rfl⟩ | ⟨hu, rfl⟩⟩ := retire_cases hret
    · rcases exec_cases hexec with ⟨e, rfl, hcause⟩ | ⟨hsame, -⟩
      · obtain ⟨hlow, hhigh, hone⟩ := e.cause.code_range
        rw [encode_of_decodeWord hdec]
        exact ⟨e.cause.code, op, e.info, rfl, hlow, hhigh, .inr ⟨fun h => hcause (hone h), hop⟩⟩
      · simp [hsame, hrun] at hend
    · simp [hu] at hend

end Sys2Proof.Machine

/-!
PROOFS. The call stack and the computed jump (spec/41_control_flow.md R122, R124, R129).
-/

namespace Sys2Proof.Machine

/-! `sp` as a number -/

theorem sp_ne_zero_of_pos {v : StackPtr} (h : 0 < v.toNat) : v ≠ 0 := by
  rintro rfl
  exact Nat.lt_irrefl 0 h

theorem toNat_sub_one_of_pos {v : StackPtr} (h : 1 ≤ v.toNat) : (v - 1).toNat = v.toNat - 1 := by
  bv_omega

theorem toNat_add_one_of_lt {v : StackPtr} (h : v.toNat < 16) : (v + 1).toNat = v.toNat + 1 := by
  bv_omega

/-- `sp` is 0, the number of an entry plus 1, or above 16. -/
theorem stackPtr_cases (v : StackPtr) :
    v = 0 ∨ (∃ j : StackSlot, j.val + 1 = v.toNat) ∨ 16 < v.toNat := by
  by_cases h0 : v.toNat = 0
  · exact .inl (BitVec.eq_of_toNat_eq h0)
  · by_cases h16 : v.toNat ≤ 16
    · exact .inr (.inl ⟨⟨v.toNat - 1, by omega⟩, Nat.sub_add_cancel (by omega)⟩)
    · exact .inr (.inr (by omega))

/-! What 00EE and 2nnn answer, by the value of `sp` -/

theorem exec_ret_of_empty {s : State} (h : s.sp = 0) :
    exec .ret s = .next (s.enterFault (encode .ret) ⟨.stackUnderflow, 0⟩) := if_pos h

/-- With `sp` in 1..16 the entry below `sp` is the new `pc`. -/
theorem exec_ret_of_entry {s : State} (j : StackSlot) (h : j.val + 1 = s.sp.toNat) :
    exec .ret s = .next ((s.advance.setSp (s.sp - 1)).setPc s.stack[j.val]) := by
  have hne := sp_ne_zero_of_pos (v := s.sp) (by omega)
  have hentry : s.stack[s.sp.toNat - 1]? = some s.stack[j.val] := by
    rw [← h, Nat.add_sub_cancel, Vector.getElem?_eq_getElem j.isLt]
  simp only [exec, execRet, if_neg hne, hentry]

theorem exec_ret_of_absent {s : State} (h : 16 < s.sp.toNat) :
    exec .ret s = .fault (.stackEntryAbsent s.sp) := by
  have hne := sp_ne_zero_of_pos (v := s.sp) (by omega)
  have hentry : s.stack[s.sp.toNat - 1]? = none := Vector.getElem?_eq_none (by omega)
  simp only [exec, execRet, if_neg hne, hentry]

theorem exec_call_of_full {nnn : Addr} {s : State} (h : s.sp.toNat = 16) :
    exec (.call nnn) s = .next (s.enterFault (encode (.call nnn)) ⟨.stackOverflow, 16⟩) := if_pos h

/-- With `sp` below 16 the advanced `pc` is stored in entry `sp`. -/
theorem exec_call_of_free {nnn : Addr} {s : State} (h : s.sp.toNat < 16) :
    exec (.call nnn) s =
      .next (((s.advance.setStack (s.stack.set s.sp.toNat (nextPc s) h)).setSp (s.sp + 1)).setPc
        (jumpTarget nnn)) :=
  (if_neg (Nat.ne_of_lt h)).trans (dif_pos h)

theorem exec_call_of_absent {nnn : Addr} {s : State} (h : 16 < s.sp.toNat) :
    exec (.call nnn) s = .fault (.stackEntryAbsent s.sp) :=
  (if_neg (Nat.ne_of_gt h)).trans (dif_neg (Nat.lt_asymm h))

/-- What 00EE can answer: the fault of an empty stack, or a return to the entry below `sp`. -/
theorem exec_ret_cases {s t : State} (h : exec .ret s = .next t) :
    (s.sp = 0 ∧ t = s.enterFault (encode .ret) ⟨.stackUnderflow, 0⟩) ∨
    ∃ j : StackSlot, j.val + 1 = s.sp.toNat ∧
      t = (s.advance.setSp (s.sp - 1)).setPc s.stack[j.val] := by
  rcases stackPtr_cases s.sp with h0 | ⟨j, hj⟩ | hgt
  · rw [exec_ret_of_empty h0] at h
    cases h
    exact .inl ⟨h0, rfl⟩
  · rw [exec_ret_of_entry j hj] at h
    cases h
    exact .inr ⟨j, hj, rfl⟩
  · rw [exec_ret_of_absent hgt] at h
    cases h

/-- What 2nnn can answer: the fault of a full stack, or a call that pushes the advanced `pc`. -/
theorem exec_call_cases {nnn : Addr} {s t : State} (h : exec (.call nnn) s = .next t) :
    (s.sp.toNat = 16 ∧ t = s.enterFault (encode (.call nnn)) ⟨.stackOverflow, 16⟩) ∨
    ∃ hsp : s.sp.toNat < 16,
      t = ((s.advance.setStack (s.stack.set s.sp.toNat (nextPc s) hsp)).setSp (s.sp + 1)).setPc
        (jumpTarget nnn) := by
  rcases Nat.lt_trichotomy s.sp.toNat 16 with hlt | heq | hgt
  · rw [exec_call_of_free hlt] at h
    cases h
    exact .inr ⟨hlt, rfl⟩
  · rw [exec_call_of_full heq] at h
    cases h
    exact .inl ⟨heq, rfl⟩
  · rw [exec_call_of_absent hgt] at h
    cases h

/-- Settles O20: the entry below `sp` exists, and only `sp` and `pc` are written. -/
theorem retRestoresPc : Obligations.RetRestoresPc := by
  refine ⟨encodedAs_pattern .ret, fun s hlow hhigh => ?_⟩
  have hexec := exec_ret_of_entry (s := s) ⟨s.sp.toNat - 1, by omega⟩ (Nat.sub_add_cancel hlow)
  refine ⟨_, hexec, by simp, toNat_sub_one_of_pos hlow, fun j hj => ?_⟩
  simp [← hj]

/-- Settles O21: the two cases in which there is no entry below `sp`. -/
theorem retOfEmptyStackFaults : Obligations.RetOfEmptyStackFaults := fun _ =>
  ⟨exec_ret_of_empty, exec_ret_of_absent⟩

/-- Settles O23: one entry of the stack is set, and only stack, `sp` and `pc` are written. -/
theorem callPushesTheReturnAddress : Obligations.CallPushesTheReturnAddress := by
  intro nnn s
  refine ⟨encodedAs_pattern (.call nnn), fun hsp => ⟨_, exec_call_of_free hsp, by simp, fun j => ?_,
    toNat_add_one_of_lt hsp, jumpTarget_toNat nnn⟩⟩
  simp [Vector.getElem_set, eq_comm]

/-- Settles O24: the two cases in which entry `sp` does not exist. -/
theorem callOfFullStackFaults : Obligations.CallOfFullStackFaults := fun _ _ =>
  ⟨exec_call_of_full, exec_call_of_absent⟩

/-- Settles O25: the entry the return reads is the one the call wrote. -/
theorem callThenRetRoundTrip : Obligations.CallThenRetRoundTrip := by
  intro nnn s t u hsp hcall hstack husp
  rw [exec_call_of_free hsp] at hcall
  cases hcall
  have hentry : s.sp.toNat + 1 = u.sp.toNat := by
    rw [husp]
    exact (toNat_add_one_of_lt hsp).symm
  refine ⟨_, exec_ret_of_entry ⟨s.sp.toNat, hsp⟩ hentry, ?_, ?_⟩
  · simp [hstack]
  · simp [husp]

/-- The computed target as a number: the sum of the address and V0 fits 16 bits (R129). -/
theorem computedTarget_toNat (nnn : Addr) (v : Byte) :
    (computedTarget nnn v).toNat = nnn.toNat + v.toNat := by
  have hnnn : nnn.zext.toNat = nnn.toNat := BitVec.toNat_setWidth_of_le (by decide)
  have hv : v.zext.toNat = v.toNat := BitVec.toNat_setWidth_of_le (by decide)
  rw [computedTarget, BitVec.toNat_add, hnnn, hv, Nat.mod_eq_of_lt (by omega)]

/-- Settles O28: the sum is not reduced, and its largest value is 0xFFF + 0xFF. -/
theorem jpV0SetsPcToTheSum : Obligations.JpV0SetsPcToTheSum := by
  intro nnn s
  have hsum := computedTarget_toNat nnn (s.reg 0)
  have hbound : (computedTarget nnn (s.reg 0)).toNat ≤ 0x10FE := by omega
  exact ⟨encodedAs_pattern (.jpV0 nnn), _, rfl, by simp, hsum, hbound⟩

end Sys2Proof.Machine

/-!
PROOFS. Where `pc` can be after a step (spec/40_step_cycle.md R111).
-/

namespace Sys2Proof.Machine

/-- An execute stage that ends RUNNING has not raised. -/
theorem eq_ok_of_settle {i : Instr} {s t : State} {r : Except Raise State}
    (h : settle i s r = .next t) (hrun : t.run = .running) : r = .ok t := by
  cases r with
  | ok u =>
    cases h
    rfl
  | error e =>
    cases h
    cases hrun

/-- What the execute stage of a store can answer: the bytes copied inside memory, or a fault
entry. -/
theorem settle_writeBytes_cases {i : Instr} {s t u : State} {addr : Nat} {bs : List Byte}
    (h : settle i s (writeBytes u addr bs) = .next t) :
    ((bs = [] ∨ addr + bs.length ≤ Config.memSize) ∧ t = u.setMem (u.mem.fill addr bs)) ∨
    ∃ e, t = s.enterFault (encode i) e := by
  rcases writeBytes_cases u addr bs with ⟨hok, hfit⟩ | ⟨e, herr, -⟩
  · rw [hok] at h
    cases h
    exact .inl ⟨hfit, rfl⟩
  · rw [herr] at h
    cases h
    exact .inr ⟨e, rfl⟩

/-- A skip's `pc` is the fetch address plus 2 or plus 4 (R121). -/
theorem advance_skipIf_pc_cases (s : State) (c : Bool) :
    (s.advance.skipIf c).pc = fetchAddr s + 2 ∨ (s.advance.skipIf c).pc = fetchAddr s + 4 := by
  rw [advance_skipIf_pc]
  cases c <;> simp

/-- Where `pc` can be after an execute stage that ends RUNNING, by the instruction. -/
theorem exec_pc_cases {i : Instr} {s t : State} (h : exec i s = .next t) (hrun : t.run = .running) :
    t.pc = fetchAddr s + 2 ∨
    (t.pc = fetchAddr s + 4 ∧ mayWrite i = []) ∨
    (t.pc = fetchAddr s ∧ (∃ x, i = .ldVxK x) ∧ ∀ k : Key, s.key[k.val] = false) ∨
    (∃ nnn, (i = .jp nnn ∨ i = .call nnn) ∧ t.pc.toNat = nnn.toNat) ∨
    (∃ nnn, i = .jpV0 nnn ∧ t.pc.toNat = nnn.toNat + (s.reg 0).toNat) ∨
    (i = .ret ∧ ∃ j : StackSlot, j.val + 1 = s.sp.toNat ∧ t.pc = s.stack[j.val]) := by
  cases i with
  | ret =>
    rcases exec_ret_cases h with ⟨-, rfl⟩ | ⟨j, hj, rfl⟩
    · cases hrun
    · simp only [State.setPc_pc, true_and]
      exact .inr (.inr (.inr (.inr (.inr ⟨j, hj, rfl⟩))))
  | call nnn =>
    rcases exec_call_cases h with ⟨-, rfl⟩ | ⟨-, rfl⟩
    · cases hrun
    · simp [jumpTarget_toNat]
  | jp nnn =>
    cases h
    simp [jumpTarget_toNat]
  | jpV0 nnn =>
    cases h
    simp [computedTarget_toNat]
  | seImm | sneImm | seReg | sneReg =>
    cases h
    exact (advance_skipIf_pc_cases s _).imp_right fun hpc => .inl ⟨hpc, rfl⟩
  | skp x | sknp x =>
    have hok := eq_ok_of_settle h hrun
    split at hok <;> cases hok
    exact (advance_skipIf_pc_cases s _).imp_right fun hpc => .inl ⟨hpc, rfl⟩
  | ldVxK x =>
    simp only [exec, execLdVxK] at h
    split at h
    · cases h
      exact .inl rfl
    · next hnone =>
      cases h
      simp [lowestKey_none.mp hnone]
  | ldBVx x | stRegs x =>
    rcases settle_writeBytes_cases h with ⟨-, rfl⟩ | ⟨e, rfl⟩
    · exact .inl rfl
    · cases hrun
  | drw x y n | ldRegs x =>
    have hok := eq_ok_of_settle h hrun
    split at hok <;> cases hok
    exact .inl rfl
  | _ =>
    cases h
    exact .inl rfl

/-- Settles O12: the no-op goes on to the next word, and for a decoded instruction the cases are
those of its execute stage, which the timer stage leaves. -/
theorem pcAfterAStep : Obligations.PcAfterAStep := by
  intro s t hrun hstep hend
  obtain ⟨op, u, hop, rfl, ⟨hdec, rfl⟩ | ⟨i, hdec, hexec⟩⟩ :=
    step_cases_of_running hrun hstep hend
  · exact ⟨op, hop, .inl rfl⟩
  · refine ⟨op, hop, ?_⟩
    have hpc := exec_pc_cases hexec hend
    simpa only [hdec, Option.some.injEq, exists_eq_left', timerStage_pc] using hpc

end Sys2Proof.Machine

/-!
PROOFS. The invariant of the core (spec/10_state.md R27 to R29, R35, spec/20_memory.md R50): it
holds after reset, a step keeps it and answers a next state, and so does every host call
(spec/60_exceptions.md R250, R257, R261).
-/

namespace Sys2Proof.Machine

/-! The parts of the invariant over one instruction -/

theorem exec_sp_le {i : Instr} {s t : State} (h : exec i s = .next t) (hsp : s.sp.toNat ≤ 16) :
    t.sp.toNat ≤ 16 := by
  cases i with
  | ret =>
    rcases exec_ret_cases h with ⟨-, rfl⟩ | ⟨j, hj, rfl⟩
    · exact hsp
    · have hsub := toNat_sub_one_of_pos (v := s.sp) (by omega)
      simp only [State.setPc_sp, State.setSp_sp]
      omega
  | call nnn =>
    rcases exec_call_cases h with ⟨-, rfl⟩ | ⟨hlt, rfl⟩
    · exact hsp
    · have hadd := toNat_add_one_of_lt hlt
      simp only [State.setPc_sp, State.setSp_sp]
      omega
  | _ =>
    have hsame : t.sp = s.sp := exec_onlyChanges h .sp (by simp [mayWrite])
    rwa [hsame]

/-- Only 2nnn writes the stack, and it writes the advanced `pc` (10_state.md R28). -/
theorem exec_stack_cases {i : Instr} {s t : State} (h : exec i s = .next t) (j : StackSlot) :
    t.stack[j.val] = s.stack[j.val] ∨ t.stack[j.val] = nextPc s := by
  cases i with
  | call nnn =>
    rcases exec_call_cases h with ⟨-, rfl⟩ | ⟨-, rfl⟩
    · exact .inl rfl
    · simp only [State.setPc_stack, State.setSp_stack, State.setStack_stack, Vector.getElem_set]
      split
      · exact .inr rfl
      · exact .inl rfl
  | _ =>
    have hsame : t.stack = s.stack := exec_onlyChanges h .stack (by simp [mayWrite])
    exact .inl (by rw [hsame])

/-- Only Fx33 and Fx55 write memory, and they write inside it (20_memory.md R51, R56). -/
theorem exec_mem_cases {i : Instr} {s t : State} (h : exec i s = .next t) :
    t.mem = s.mem ∨ ∃ addr bs, (bs = [] ∨ addr + bs.length ≤ Config.memSize) ∧
      t.mem = s.mem.fill addr bs := by
  cases i with
  | ldBVx x | stRegs x =>
    rcases settle_writeBytes_cases h with ⟨hfit, rfl⟩ | ⟨e, rfl⟩
    · exact .inr ⟨_, _, hfit, rfl⟩
    · exact .inl rfl
  | ret =>
    rcases exec_ret_cases h with ⟨-, rfl⟩ | ⟨j, -, rfl⟩ <;> exact .inl rfl
  | call nnn =>
    rcases exec_call_cases h with ⟨-, rfl⟩ | ⟨-, rfl⟩ <;> exact .inl rfl
  | ldVxK x =>
    simp only [exec, execLdVxK] at h
    split at h <;> (cases h; exact .inl rfl)
  | drw x y n =>
    simp only [exec, execDrw] at h
    split at h <;> (cases h; exact .inl rfl)
  | skp x | sknp x =>
    simp only [exec, execSkp, execSknp] at h
    split at h <;> cases h
    · exact .inl (State.skipIf_mem ..)
    · exact .inl rfl
  | ldRegs x =>
    simp only [exec, execLdRegs] at h
    split at h <;> (cases h; exact .inl rfl)
  | seImm | sneImm | seReg | sneReg =>
    cases h
    exact .inl (State.skipIf_mem ..)
  | _ =>
    cases h
    exact .inl rfl

theorem exec_mem_wf {i : Instr} {s t : State} (h : exec i s = .next t) (hwf : s.mem.wf) :
    t.mem.wf := by
  rcases exec_mem_cases h with hmem | ⟨addr, bs, hfit, hmem⟩
  · rwa [hmem]
  · rw [hmem]
    rcases hfit with rfl | hfit
    · exact hwf
    · exact Memory.fill_wf hwf addr bs hfit

/-! The invariant over a step -/

/-- Settles O13: zero is within every bound, and the fault record is zero. -/
theorem resetMeetsTheInvariant : Obligations.ResetMeetsTheInvariant where
  spBound := by decide
  pcBound := by decide
  stackBound := by decide
  memWf := ⟨List.Pairwise.nil, by simp [State.reset]⟩
  recordRunning _ := ⟨rfl, rfl, rfl, rfl⟩
  recordFaulted h := by cases h

/-- A fault entry with one of the six causes keeps the invariant: only the record changes (R232). -/
theorem State.Inv.faultEntry {s : State} (hs : s.Inv) {cause : Byte} {op info : Word}
    (hlow : 1 ≤ cause.toNat) (hhigh : cause.toNat ≤ 6) : (faultEntry s cause op info).Inv where
  spBound := hs.spBound
  pcBound := hs.pcBound
  stackBound := hs.stackBound
  memWf := hs.memWf
  recordRunning h := by cases h
  recordFaulted _ := ⟨hlow, hhigh⟩

/-- The bound of `pc` over a step that ends RUNNING, target by target of R111: the fetch address
lies inside memory, a 12-bit address is at most 0xFFF, a byte added to it at most 0xFF, and a stack
entry at most 4096. -/
theorem step_pc_le {s t : State} (hs : s.Inv) (hrun : s.run = .running) (hstep : step s = .next t)
    (hend : t.run = .running) : t.pc.toNat ≤ 0x10FE := by
  obtain ⟨op, hop, hpc⟩ := pcAfterAStep s t hrun hstep hend
  obtain ⟨haddr, -⟩ := fetch_ok hop
  simp only [Config.memSize] at haddr
  rcases hpc with hpc | ⟨hpc, -⟩ | ⟨hpc, -⟩ | ⟨nnn, -, hpc⟩ | ⟨nnn, -, hpc⟩ | ⟨-, j, -, hpc⟩
  · bv_omega
  · bv_omega
  · bv_omega
  · omega
  · omega
  · have hentry := hs.stackBound j
    rw [← hpc] at hentry
    omega

/-- The other bounds over a step that ends RUNNING are those of its execute stage. -/
theorem step_inv_of_running {s t : State} (hs : s.Inv) (hrun : s.run = .running)
    (hstep : step s = .next t) (hend : t.run = .running) : t.Inv := by
  have hpc := step_pc_le hs hrun hstep hend
  obtain ⟨op, u, hop, rfl, ⟨-, rfl⟩ | ⟨i, hdec, hexec⟩⟩ := step_cases_of_running hrun hstep hend
  · exact ⟨hs.spBound, hpc, hs.stackBound, hs.memWf, hs.recordRunning, hs.recordFaulted⟩
  · obtain ⟨haddr, -⟩ := fetch_ok hop
    simp only [Config.memSize] at haddr
    have hsp := exec_sp_le hexec hs.spBound
    have hmem := exec_mem_wf hexec hs.memWf
    refine ⟨hsp, hpc, fun j => ?_, hmem, fun _ => ?_, fun h => ?_⟩
    · rcases exec_stack_cases hexec j with hj | hj
      · rw [timerStage_stack, hj]
        exact hs.stackBound j
      · rw [timerStage_stack, hj, nextPc]
        bv_omega
    · rcases exec_cases hexec with ⟨e, rfl, -⟩ | ⟨-, hfcause, hfpc, hfop, hfinfo⟩
      · cases hend
      · simpa [hfcause, hfpc, hfop, hfinfo] using hs.recordRunning hrun
    · rw [hend] at h
      cases h

/-- Settles O14: a faulted state is its own next state, a step that faults is the state before with
the fault record, and a step that ends RUNNING keeps every bound. -/
theorem stepKeepsTheInvariant : Obligations.StepKeepsTheInvariant := by
  intro s t hs hstep
  cases hrun : s.run with
  | faulted =>
    rw [step_of_faulted hrun] at hstep
    cases hstep
    exact hs
  | running =>
    cases hend : t.run with
    | running => exact step_inv_of_running hs hrun hstep hend
    | faulted =>
      obtain ⟨cause, op, info, rfl, hlow, hhigh, -⟩ := faultingStepIsPrecise s t hrun hstep hend
      exact hs.faultEntry hlow hhigh

/-! Every step and every host call completes -/

theorem settle_returns (i : Instr) (s : State) (r : Except Raise State) :
    ∃ t, settle i s r = .next t := by
  cases r <;> exact ⟨_, rfl⟩

/-- Only 00EE and 2nnn can stop, and only with `sp` above 16 (log entry 4). -/
theorem exec_returns (i : Instr) {s : State} (hsp : s.sp.toNat ≤ 16) : ∃ t, exec i s = .next t := by
  cases i with
  | ret =>
    rcases stackPtr_cases s.sp with h0 | ⟨j, hj⟩ | hgt
    · exact ⟨_, exec_ret_of_empty h0⟩
    · exact ⟨_, exec_ret_of_entry j hj⟩
    · omega
  | call nnn =>
    rcases Nat.lt_or_eq_of_le hsp with hlt | heq
    · exact ⟨_, exec_call_of_free hlt⟩
    · exact ⟨_, exec_call_of_full heq⟩
  | ldVxK x =>
    simp only [exec, execLdVxK]
    split <;> exact ⟨_, rfl⟩
  | ldBVx | stRegs | ldRegs | drw | skp | sknp => exact settle_returns ..
  | _ => exact ⟨_, rfl⟩

/-- Settles O15: each branch of the step answers a next state, the instruction's because `sp` is at
most 16. -/
theorem stepReturnsUnderTheInvariant : Obligations.StepReturnsUnderTheInvariant := by
  intro s hs
  cases hrun : s.run with
  | faulted => exact ⟨s, step_of_faulted hrun⟩
  | running =>
    cases hfetch : fetch s with
    | error e => exact ⟨_, step_of_fetch_error hrun hfetch⟩
    | ok op =>
      cases hdec : decodeWord op with
      | none => exact ⟨_, step_of_decodeWord_none hrun hfetch hdec⟩
      | some i =>
        obtain ⟨t, hexec⟩ := exec_returns i hs.spBound
        have hstep := step_of_decodeWord_some hrun hfetch hdec
        rw [hexec] at hstep
        exact ⟨_, hstep⟩

/-- Font and program lie inside memory (R273). -/
theorem loaded_mem_wf {s : State} (hwf : s.mem.wf) (font : FontTable) {bytes : List Byte}
    (h : bytes.length ≤ 3584) : (s.loaded font bytes).mem.wf :=
  Memory.fill_wf (Memory.fill_wf hwf 0x050 font.toList (by simp)) 0x200 bytes
    (Nat.add_le_add_left h 0x200)

/-- A load keeps the invariant: `pc` is the program base, and memory stays canonical. -/
theorem State.Inv.loaded {s : State} (hs : s.Inv) (font : FontTable) {bytes : List Byte}
    (h : bytes.length ≤ Config.progMax) : (s.loaded font bytes).Inv where
  spBound := hs.spBound
  pcBound := by simp [State.loaded]
  stackBound := hs.stackBound
  memWf := loaded_mem_wf hs.memWf font h
  recordRunning := hs.recordRunning
  recordFaulted := hs.recordFaulted

theorem loadWith_inv {s : State} (hs : s.Inv) (font : FontTable) (bytes : List Byte) :
    (loadWith font bytes s).2.Inv := by
  rw [loadWith]
  split
  · next h => exact hs.loaded font h
  · exact hs

theorem reconstruct_inv (s : State) : s.reconstruct.Inv :=
  ⟨resetMeetsTheInvariant.spBound, resetMeetsTheInvariant.pcBound,
    resetMeetsTheInvariant.stackBound, resetMeetsTheInvariant.memWf,
    resetMeetsTheInvariant.recordRunning, resetMeetsTheInvariant.recordFaulted⟩

/-- Every host call completes and keeps the invariant (R250, R257). -/
theorem transact_inv (font : FontTable) (c : HostCall) {s : State} (hs : s.Inv) :
    ∃ reply t, transact font c s = .next (reply, t) ∧ t.Inv := by
  cases c with
  | load bytes => exact ⟨_, _, rfl, loadWith_inv hs font bytes⟩
  | step =>
    obtain ⟨t, hstep⟩ := stepReturnsUnderTheInvariant s hs
    exact ⟨.none, t, by rw [transact, hstep], stepKeepsTheInvariant s t hs hstep⟩
  | setKey id pressed =>
    exact ⟨_, _, rfl, hs.spBound, hs.pcBound, hs.stackBound, hs.memWf, hs.recordRunning,
      hs.recordFaulted⟩
  | framebuffer | tone | status => exact ⟨_, s, rfl, hs⟩
  | reset => exact ⟨_, _, rfl, reconstruct_inv s⟩

/-- Settles O16, by induction on the list of calls. -/
theorem hostRunsKeepTheInvariant : Obligations.HostRunsKeepTheInvariant := by
  intro font calls
  induction calls with
  | nil => exact fun s hs => ⟨s, rfl, hs⟩
  | cons c cs ih =>
    intro s hs
    obtain ⟨reply, t, hcall, ht⟩ := transact_inv font c hs
    rw [runCalls, hcall]
    exact ih t ht

end Sys2Proof.Machine

/-!
PROOFS. The instructions that write VF as a flag (spec/42_alu.md R139, R147 to R151), the two other
readings of register 15 (spec/93_implementation_defined.md section 2) and the draw of Cxkk (R152).
-/

namespace Sys2Proof.Machine

/-! The registers under the three orders of the writes -/

section
variable (flag result : Byte → Byte → Byte) (x y r : Reg) (s : State)

@[simp] theorem flagThenResult_reg :
    (flagThenResult flag result x y s).reg r =
      if r = x then result (s.reg x) (s.reg y)
      else if r = 15 then flag (s.reg x) (s.reg y) else s.reg r := by
  simp [flagThenResult]

@[simp] theorem resultThenFlag_reg :
    (resultThenFlag flag result x y s).reg r =
      if r = 15 then flag (s.reg x) (s.reg y)
      else if r = x then result (s.reg x) (s.reg y) else s.reg r := by
  simp [resultThenFlag]

/-- The result is computed from the operands as the flag left them. -/
@[simp] theorem flagThenReread_reg :
    (flagThenReread flag result x y s).reg r =
      if r = x then
        result (if x = 15 then flag (s.reg x) (s.reg y) else s.reg x)
          (if y = 15 then flag (s.reg x) (s.reg y) else s.reg y)
      else if r = 15 then flag (s.reg x) (s.reg y) else s.reg r := by
  simp [flagThenReread]

/-- Under every reading only the destination and VF are written (10_state.md R21, R22). -/
theorem writeFlagged_reg_of_ne {x r : Reg} (rd : VfReading) (hx : r ≠ x) (hf : r ≠ 15) :
    (writeFlagged rd flag result x y s).reg r = s.reg r := by
  cases rd <;> simp [writeFlagged, hx, hf]

theorem writeCarry_reg_of_ne {x r : Reg} (rd : VfReading) (hx : r ≠ x) (hf : r ≠ 15) :
    (writeCarry rd flag result x y s).reg r = s.reg r := by
  cases rd <;> simp [writeCarry, hx, hf]

end

/-! The flags and the results as numbers -/

theorem flagOf_toNat (c : Bool) : (flagOf c).toNat = if c then 1 else 0 := by
  cases c <;> rfl

theorem sumByte_toNat (a b : Byte) : (sumByte a b).toNat = (a.toNat + b.toNat) % 256 :=
  BitVec.toNat_ofNat ..

theorem diffByte_toNat (a b : Byte) :
    (diffByte a b).toNat = (a.toNat + 256 - b.toNat) % 256 := by
  rw [diffByte, BitVec.toNat_sub]
  congr 1
  omega

theorem revDiffByte_toNat (a b : Byte) :
    (revDiffByte a b).toNat = (b.toNat + 256 - a.toNat) % 256 := diffByte_toNat b a

theorem lowBitFlag_toNat (a b : Byte) : (lowBitFlag a b).toNat = a.toNat % 2 := by
  simp [lowBitFlag, Nat.and_one_is_mod]

theorem shrByte_toNat (a b : Byte) : (shrByte a b).toNat = a.toNat / 2 := by
  simp [shrByte, Nat.shiftRight_eq_div_pow]

theorem highBitFlag_eq (a b : Byte) : highBitFlag a b = a >>> 7 := by
  revert a
  unfold highBitFlag
  decide

theorem highBitFlag_toNat (a b : Byte) : (highBitFlag a b).toNat = a.toNat / 128 := by
  simp [highBitFlag_eq, Nat.shiftRight_eq_div_pow]

theorem shlByte_toNat (a b : Byte) : (shlByte a b).toNat = a.toNat * 2 % 256 := by
  simp [shlByte, Nat.shiftLeft_eq]

/-! Readings that agree -/

section
variable {flag result : Byte → Byte → Byte} {x y : Reg} {s : State}

/-- Two different registers are written in either order. -/
theorem setVF_setReg_comm (hx : x ≠ 15) (v w : Byte) :
    (s.setVF v).setReg x w = (s.setReg x w).setVF v := by
  have hne : (15 : Nat) ≠ x.val := fun h => hx (Fin.ext h.symm)
  simp only [State.setVF, State.setReg, Config.flagReg]
  congr 1
  exact Vector.set_comm _ _ hne

theorem resultThenFlag_eq_flagThenResult (hx : x ≠ 15) :
    resultThenFlag flag result x y s = flagThenResult flag result x y s :=
  (setVF_setReg_comm hx ..).symm

/-- Where the flag is written to no operand the result reads, it is computed from the old values. -/
theorem flagThenReread_eq_flagThenResult (hx : x ≠ 15)
    (hy : y ≠ 15 ∨ ∀ a b c, result a b = result a c) :
    flagThenReread flag result x y s = flagThenResult flag result x y s := by
  simp only [flagThenReread, flagThenResult, State.setVF_reg, if_neg hx]
  rcases hy with hy | hy
  · rw [if_neg hy]
  · rw [hy]

theorem writeFlagged_eq_sequential (hx : x ≠ 15)
    (hy : y ≠ 15 ∨ ∀ a b c, result a b = result a c) (rd : VfReading) :
    writeFlagged rd flag result x y s = writeFlagged .sequential flag result x y s := by
  cases rd with
  | sequential => rfl
  | operandsFirst => exact (flagThenReread_eq_flagThenResult hx hy).symm
  | flagLast =>
    exact (resultThenFlag_eq_flagThenResult hx).trans (flagThenReread_eq_flagThenResult hx hy).symm

theorem writeCarry_eq_sequential (hx : x ≠ 15) (rd : VfReading) :
    writeCarry rd flag result x y s = writeCarry .sequential flag result x y s := by
  cases rd with
  | sequential | operandsFirst => rfl
  | flagLast => exact resultThenFlag_eq_flagThenResult hx

end

/-! Readings that take both operands first -/

section
variable (flag result : Byte → Byte → Byte) (x y : Reg) (s : State)

theorem writeFlagged_operandsFirst_dest :
    (writeFlagged .operandsFirst flag result x y s).reg x = result (s.reg x) (s.reg y) := by
  simp [writeFlagged]

theorem writeFlagged_flagLast_flag :
    (writeFlagged .flagLast flag result x y s).reg 15 = flag (s.reg x) (s.reg y) := by
  simp [writeFlagged]

theorem writeCarry_operandsFirst_dest :
    (writeCarry .operandsFirst flag result x y s).reg x = result (s.reg x) (s.reg y) := by
  simp [writeCarry]

theorem writeCarry_flagLast_flag :
    (writeCarry .flagLast flag result x y s).reg 15 = flag (s.reg x) (s.reg y) := by
  simp [writeCarry]

/-- A destination beside VF: result and flag are both those of the old operands. -/
theorem writeFlagged_of_reading {rd : VfReading} (hrd : rd = .operandsFirst ∨ rd = .flagLast)
    {x : Reg} (hx : x ≠ 15) :
    (writeFlagged rd flag result x y s).reg x = result (s.reg x) (s.reg y) ∧
      (writeFlagged rd flag result x y s).reg 15 = flag (s.reg x) (s.reg y) := by
  rcases hrd with rfl | rfl <;> simp [writeFlagged, hx, Ne.symm hx]

/-- VF with itself ends with the result or with the flag. -/
theorem writeFlagged_vf_self {rd : VfReading} (hrd : rd = .operandsFirst ∨ rd = .flagLast) :
    (writeFlagged rd flag result 15 15 s).reg 15 = result (s.reg 15) (s.reg 15) ∨
      (writeFlagged rd flag result 15 15 s).reg 15 = flag (s.reg 15) (s.reg 15) := by
  rcases hrd with rfl | rfl <;> simp [writeFlagged]

end

/-! The reading in force -/

/-- Settles O33: the sum is taken before the carry is written, and V[x] is written last. -/
theorem addRegSetsCarry : Obligations.AddRegSetsCarry := by
  intro x y s
  have hexec : exec (.addReg x y) s = .next (flagThenResult carryFlag sumByte x y s.advance) := rfl
  refine ⟨encodedAs_pattern (.addReg x y), _, hexec, by simp [flagThenResult], rfl, ?_, ?_, ?_⟩
  · intro r hx hf
    simp [hx, hf]
  · simp [sumByte_toNat]
  · intro hx
    simp [Ne.symm hx, carryFlag, flagOf]

/-- What 8xy5 and 8xy7 leave in the registers, as numbers: `op` is the arithmetic of the result, and
register 15 as an operand is the flag, since VF is written first. -/
theorem exec_of_flagThenReread {i : Instr} {x y : Reg} {s : State}
    {flag result : Byte → Byte → Byte} {op : Nat → Nat → Nat} {f : Nat}
    (hexec : exec i s = .next (flagThenReread flag result x y s.advance))
    (hop : ∀ a b, (result a b).toNat = op a.toNat b.toNat)
    (hflag : (flag (s.reg x) (s.reg y)).toNat = f) :
    ∃ t : State, exec i s = .next t ∧ OnlyChanges [.V, .pc] s t ∧ t.pc = nextPc s ∧
      (∀ r : Reg, r ≠ x → r ≠ 15 → t.reg r = s.reg r) ∧
      (x ≠ 15 → (t.reg 15).toNat = f) ∧
      (x ≠ 15 → y ≠ 15 → (t.reg x).toNat = op (s.reg x).toNat (s.reg y).toNat) ∧
      (x = 15 → y ≠ 15 → (t.reg 15).toNat = op f (s.reg y).toNat) ∧
      (x ≠ 15 → y = 15 → (t.reg x).toNat = op (s.reg x).toNat f) ∧
      (x = 15 → y = 15 → (t.reg 15).toNat = op f f) := by
  subst hflag
  refine ⟨_, hexec, by simp [flagThenReread], rfl, ?_, ?_, ?_, ?_, ?_, ?_⟩
  · intro r hx hf
    simp [hx, hf]
  · intro hx
    simp [Ne.symm hx]
  · intro hx hy
    simp [hx, hy, hop]
  · rintro rfl hy
    simp [hy, hop]
  · rintro hx rfl
    simp [hx, hop]
  · rintro rfl rfl
    simp [hop]

/-- A flag less itself, modulo 256. -/
theorem eq_zero_of_toNat_sub_self {v : Byte} {f : Nat} (h : v.toNat = (f + 256 - f) % 256) :
    v = 0 := by
  apply BitVec.eq_of_toNat_eq
  rw [h, Nat.add_sub_cancel_left]
  rfl

/-- Settles O34: the flag is strict, and the result is the difference of two bytes. -/
theorem subRegSetsStrictGreater : Obligations.SubRegSetsStrictGreater := by
  intro x y s
  have hflag : (greaterFlag (s.reg x) (s.reg y)).toNat =
      if (s.reg x).toNat > (s.reg y).toNat then 1 else 0 := by simp [greaterFlag, flagOf_toNat]
  obtain ⟨t, hexec, hframe, hpc, hother, hvf, hboth, hx, hy, hself⟩ :=
    exec_of_flagThenReread (i := .subReg x y) (op := fun a b => (a + 256 - b) % 256) rfl
      diffByte_toNat hflag
  exact ⟨encodedAs_pattern (.subReg x y), t, _, hexec, hframe, hpc, rfl, hother, hvf, hboth, hx,
    hy, fun h15 hy15 => eq_zero_of_toNat_sub_self (hself h15 hy15)⟩

/-- Settles O36: as 8xy5, with the difference taken the other way round. -/
theorem subnRegSetsStrictLess : Obligations.SubnRegSetsStrictLess := by
  intro x y s
  have hflag : (lessFlag (s.reg x) (s.reg y)).toNat =
      if (s.reg y).toNat > (s.reg x).toNat then 1 else 0 := by simp [lessFlag, flagOf_toNat]
  obtain ⟨t, hexec, hframe, hpc, hother, hvf, hboth, hx, hy, hself⟩ :=
    exec_of_flagThenReread (i := .subnReg x y) (op := fun a b => (b + 256 - a) % 256) rfl
      revDiffByte_toNat hflag
  exact ⟨encodedAs_pattern (.subnReg x y), t, _, hexec, hframe, hpc, rfl, hother, hvf, hboth, hx,
    hy, fun h15 hy15 => eq_zero_of_toNat_sub_self (hself h15 hy15)⟩

/-- Settles O35: the shift reads V[x] after VF is written, which only x = 15 can tell: half of a bit
is 0. -/
theorem shrShiftsVxRight : Obligations.ShrShiftsVxRight := by
  intro x y s
  have hexec : exec (.shr x y) s = .next (flagThenReread lowBitFlag shrByte x y s.advance) := rfl
  refine ⟨encodedAs_pattern (.shr x y), _, hexec, by simp [flagThenReread], rfl, ?_, ?_, ?_⟩
  · intro r hx hf
    simp [hx, hf]
  · intro hx
    simp [hx, Ne.symm hx, shrByte_toNat, lowBitFlag_toNat]
  · rintro rfl
    apply BitVec.eq_of_toNat_eq
    simp [shrByte_toNat, lowBitFlag_toNat]

/-- Settles O37: as 8xy6; twice the top bit is 2 or 0. -/
theorem shlShiftsVxLeft : Obligations.ShlShiftsVxLeft := by
  intro x y s
  have hexec : exec (.shl x y) s = .next (flagThenReread highBitFlag shlByte x y s.advance) := rfl
  refine ⟨encodedAs_pattern (.shl x y), _, hexec, by simp [flagThenReread], rfl, ?_, ?_, ?_⟩
  · intro r hx hf
    simp [hx, hf]
  · intro hx
    simp [hx, Ne.symm hx, shlByte_toNat, highBitFlag_toNat]
  · rintro rfl
    have hbit : (s.reg 15).toNat / 128 = if (s.reg 15).toNat ≥ 128 then 1 else 0 := by
      split <;> omega
    apply BitVec.eq_of_toNat_eq
    simp only [flagThenReread_reg, State.advance_reg, if_true, shlByte_toNat, highBitFlag_toNat,
      hbit]
    split <;> rfl

/-- Settles O39: with both operands read first, the register written last holds its value whole, and
each row of the table is that value; in the cases not listed the order of the two writes cannot be
told. -/
theorem otherAliasReadings : Obligations.OtherAliasReadings := by
  intro x y s hx f a b bit
  have hbit : ∀ p [Decidable p], bit p (flagOf (decide p)) := by
    intro p _
    simp +contextual [bit, flagOf]
  refine ⟨?_, ?_, ?_, ?_, ?_, ?_, ?_, ?_, ?_, ?_, ?_, ?_, ?_, ?_, ?_⟩
  · rw [writeCarry_operandsFirst_dest]
    exact sumByte_toNat f b
  · rw [writeCarry_flagLast_flag]
    exact hbit _
  · rw [writeCarry_operandsFirst_dest, two_mul]
    exact sumByte_toNat f f
  · rw [writeCarry_flagLast_flag, two_mul]
    exact hbit _
  · exact writeFlagged_operandsFirst_dest ..
  · rw [writeFlagged_flagLast_flag]
    exact hbit _
  · intro rd hrd
    obtain ⟨hdest, hflag⟩ := writeFlagged_of_reading greaterFlag diffByte 15 s hrd hx
    rw [hdest, hflag]
    refine ⟨rfl, hbit _, ?_⟩
    rcases writeFlagged_vf_self greaterFlag diffByte s hrd with h | h <;>
      simp [h, diffByte, greaterFlag, flagOf]
  · exact writeFlagged_operandsFirst_dest ..
  · exact writeFlagged_flagLast_flag ..
  · exact writeFlagged_operandsFirst_dest ..
  · rw [writeFlagged_flagLast_flag]
    exact hbit _
  · intro rd hrd
    obtain ⟨hdest, hflag⟩ := writeFlagged_of_reading lessFlag revDiffByte 15 s hrd hx
    rw [hdest, hflag]
    refine ⟨rfl, hbit _, ?_⟩
    rcases writeFlagged_vf_self lessFlag revDiffByte s hrd with h | h <;>
      simp [h, revDiffByte, lessFlag, flagOf]
  · exact writeFlagged_operandsFirst_dest ..
  · rw [writeFlagged_flagLast_flag, highBitFlag_eq]
  · exact fun rd => ⟨writeCarry_eq_sequential hx rd,
      writeFlagged_eq_sequential hx (.inr fun _ _ _ => rfl) rd,
      writeFlagged_eq_sequential hx (.inr fun _ _ _ => rfl) rd,
      fun hy => ⟨writeFlagged_eq_sequential hx (.inl hy) rd,
        writeFlagged_eq_sequential hx (.inl hy) rd⟩⟩

/-- Settles O38: one register is written with the masked draw, and the counter advances. -/
theorem rndMasksAFreeDraw : Obligations.RndMasksAFreeDraw := by
  intro x kk s
  have hframe : OnlyChanges [.V, .pc, .draws] s
      (s.advance.countDraw.setReg x (Config.randomByte s.draws &&& kk)) := by simp
  refine ⟨encodedAs_pattern (.rnd x kk), _, _, rfl, hframe, rfl, rfl, fun r => State.setReg_reg ..,
    fun k => ?_, ?_⟩
  · exact BitVec.getLsbD_and
  · rintro rfl
    exact BitVec.and_zero

end Sys2Proof.Machine

/-!
PROOFS. The registers an instruction writes (spec/10_state.md R21, R22), and what it does not see:
the keypad latch (R32) and the sound timer (R31).
-/

namespace Sys2Proof.Machine

/-! The frame of the register file -/

/-- A block read with nothing past the block leaves the register there. -/
theorem loadBlock_get_of_lt (V : RegFile) (bs : List Byte) {x r : Reg}
    (hlen : bs.length = x.val + 1) (hr : x < r) : (loadBlock V bs)[r.val] = V[r.val] := by
  rw [loadBlock_get]
  exact List.getD_eq_default _ _ (hlen.le.trans hr)

theorem exec_reg_of_not_mayWriteReg {i : Instr} {s t : State} (h : exec i s = .next t) {r : Reg}
    (hr : mayWriteReg i r = false) : t.reg r = s.reg r := by
  cases i with
  | ldImm | addImm | ldReg | orReg | andReg | xorReg | rnd | ldVxDT =>
    simp only [mayWriteReg, beq_eq_false_iff_ne] at hr
    cases h
    simp [hr]
  | addReg =>
    simp only [mayWriteReg, Bool.or_eq_false_iff, beq_eq_false_iff_ne] at hr
    cases h
    exact writeCarry_reg_of_ne _ _ _ _ _ hr.1 hr.2
  | subReg | shr | subnReg | shl =>
    simp only [mayWriteReg, Bool.or_eq_false_iff, beq_eq_false_iff_ne] at hr
    cases h
    exact writeFlagged_reg_of_ne _ _ _ _ _ hr.1 hr.2
  | ldVxK x =>
    simp only [mayWriteReg, beq_eq_false_iff_ne] at hr
    simp only [exec, execLdVxK] at h
    split at h <;> (cases h; simp [hr])
  | drw x y n =>
    simp only [mayWriteReg, beq_eq_false_iff_ne] at hr
    simp only [exec, execDrw] at h
    split at h <;> (cases h; simp [drawSprite, hr])
  | ldRegs x =>
    simp only [mayWriteReg, decide_eq_false_iff_not, not_le] at hr
    simp only [exec, execLdRegs] at h
    rcases readBytes_cases s.advance (indexAddr s) (x.val + 1) with ⟨hok, -⟩ | ⟨e, herr, -, -⟩
    · rw [hok] at h
      cases h
      exact loadBlock_get_of_lt s.V _ (by simp) hr
    · rw [herr] at h
      cases h
      rfl
  | _ => exact exec_onlyChanges h .V (by simp [mayWrite]) r

/-- Settles O17: the parts, then the registers. -/
theorem frameOfEveryInstruction : Obligations.FrameOfEveryInstruction := fun _ _ _ h =>
  ⟨exec_onlyChanges h, fun _ => exec_reg_of_not_mayWriteReg h⟩

/-! What an instruction does not see -/

/-- The state with another keypad latch, another sound timer, or both. -/
def State.withInputs (k : Option Keypad) (v : Option Timer) (s : State) : State :=
  { s with key := k.getD s.key, ST := v.getD s.ST }

section
variable {k : Option Keypad} {v : Option Timer} {s : State}

theorem indexAddr_withInputs : indexAddr (s.withInputs k v) = indexAddr s := rfl

theorem skipIf_withInputs (c : Bool) :
    (s.withInputs k v).advance.skipIf c = (s.advance.skipIf c).withInputs k v := by
  cases c <;> rfl

/-- A block read looks at memory only. -/
theorem readBytes_withInputs (addr n : Nat) :
    readBytes (s.withInputs k v).advance addr n = readBytes s.advance addr n := by
  induction n generalizing addr with
  | zero => rfl
  | succ n ih =>
    simp only [readBytes, ih]
    rfl

/-- A block write looks at memory only, and writes nothing else. -/
theorem writeBytes_withInputs (addr : Nat) (bs : List Byte) :
    writeBytes (s.withInputs k v) addr bs =
      (writeBytes s addr bs).map (State.withInputs k v) := by
  induction bs generalizing s addr with
  | nil => rfl
  | cons b bs ih =>
    simp only [writeBytes, memWrite]
    by_cases h : addr < Config.memSize
    · simp only [if_pos h]
      exact ih (s := s.setMem (s.mem.write addr b)) (addr + 1)
    · simp only [if_neg h]
      rfl

/-- The end of an execute stage, the fault entry included, looks at neither. -/
theorem settle_withInputs (i : Instr) {r r' : Except Raise State}
    (h : r' = r.map (State.withInputs k v)) :
    settle i (s.withInputs k v) r' = mapNext (State.withInputs k v) (settle i s r) := by
  subst h
  cases r <;> rfl

/-- Beside the three key instructions no execute stage sees the latch, and beside Fx18 none sees
or writes the sound timer. -/
theorem exec_withInputs {i : Instr} (hk : readsKeypad i = true → k = none)
    (hv : ∀ x, i = .ldSTVx x → v = none) :
    exec i (s.withInputs k v) = mapNext (State.withInputs k v) (exec i s) := by
  cases i with
  | ret =>
    rcases stackPtr_cases s.sp with h | ⟨j, h⟩ | h
    · rw [exec_ret_of_empty h, exec_ret_of_empty (s := s.withInputs k v) h]
      rfl
    · rw [exec_ret_of_entry j h, exec_ret_of_entry (s := s.withInputs k v) j h]
      rfl
    · rw [exec_ret_of_absent h, exec_ret_of_absent (s := s.withInputs k v) h]
      rfl
  | call nnn =>
    rcases Nat.lt_trichotomy s.sp.toNat 16 with h | h | h
    · rw [exec_call_of_free h, exec_call_of_free (s := s.withInputs k v) h]
      rfl
    · rw [exec_call_of_full h, exec_call_of_full (s := s.withInputs k v) h]
      rfl
    · rw [exec_call_of_absent h, exec_call_of_absent (s := s.withInputs k v) h]
      rfl
  | seImm | sneImm | seReg | sneReg => exact congrArg _ (skipIf_withInputs _)
  | skp x | sknp x =>
    obtain rfl := hk rfl
    have hkey : keyAt (s.withInputs none v) ((s.withInputs none v).reg x) = keyAt s (s.reg x) := rfl
    refine settle_withInputs _ ?_
    rw [hkey]
    cases keyAt s (s.reg x) with
    | ok down => exact congrArg Except.ok (skipIf_withInputs _)
    | error e => rfl
  | ldVxK x =>
    obtain rfl := hk rfl
    have hkey : lowestKey (s.withInputs none v).key = lowestKey s.key := rfl
    simp only [exec, execLdVxK, hkey]
    cases lowestKey s.key <;> rfl
  | ldSTVx x =>
    obtain rfl := hv x rfl
    rfl
  | ldBVx x | stRegs x => exact settle_withInputs _ (writeBytes_withInputs (s := s.advance) ..)
  | drw x y n =>
    refine settle_withInputs _ ?_
    rw [readBytes_withInputs, indexAddr_withInputs]
    cases readBytes s.advance (indexAddr s) n.toNat <;> rfl
  | ldRegs x =>
    refine settle_withInputs _ ?_
    rw [readBytes_withInputs, indexAddr_withInputs]
    cases readBytes s.advance (indexAddr s) (x.val + 1) <;> rfl
  | _ => rfl

end

/-- Settles O18: for an instruction that is not Fx18 another latch is another input; Fx18 reads one
register. -/
theorem keypadSeenOnlyByKeyInstructions : Obligations.KeypadSeenOnlyByKeyInstructions := by
  intro i s key hi
  by_cases hst : ∃ x, i = .ldSTVx x
  · obtain ⟨x, rfl⟩ := hst
    rfl
  · exact exec_withInputs (k := some key) (v := none) (by simp [hi]) (fun _ _ => rfl)

/-- Settles O19: for an instruction that is not Fx18 another sound timer is another input; Fx18
overwrites it. -/
theorem soundTimerReadByNoInstruction : Obligations.SoundTimerReadByNoInstruction := by
  intro i s v
  constructor
  · intro hi
    exact exec_withInputs (k := none) (v := some v) (fun _ => rfl) fun x hx => absurd hx (hi x)
  · rintro ⟨x, rfl⟩
    rfl

end Sys2Proof.Machine

/-!
PROOFS. The index register and the memory instructions (spec/43_index_memory.md R171 to R175).
-/

namespace Sys2Proof.Machine

/-- Settles O41: the sum of two 16-bit values wraps, and only I is written. -/
theorem addIWrapsWithoutFlag : Obligations.AddIWrapsWithoutFlag := by
  intro x s
  have hframe : OnlyChanges [.I, .pc] s (s.advance.setI (indexPlus s.I (s.reg x))) := by simp
  have hzext : (s.reg x).zext.toNat = (s.reg x).toNat := BitVec.toNat_setWidth_of_le (by decide)
  refine ⟨encodedAs_pattern (.addIVx x), _, rfl, hframe, rfl, ?_⟩
  rw [State.setI_I, indexPlus, BitVec.toNat_add, hzext]

/-- Settles O42: the glyph address fits 16 bits, and only I is written. -/
theorem ldFPointsAtTheGlyph : Obligations.LdFPointsAtTheGlyph := by
  intro x s
  have hframe : OnlyChanges [.I, .pc] s (s.advance.setI (fontAddr (s.reg x))) := by simp
  refine ⟨encodedAs_pattern (.ldFVx x), _, rfl, hframe, rfl, ?_⟩
  simp only [State.setI_I, fontAddr, Config.fontBase, Config.fontGlyphBytes, BitVec.toNat_ofNat]
  omega

/-! Stores -/

/-- A store inside memory copies the bytes and writes nothing else. -/
theorem settle_writeBytes_ok {i : Instr} {s : State} {bs : List Byte}
    (h : indexAddr s + bs.length ≤ Config.memSize) :
    settle i s (writeBytes s.advance (indexAddr s) bs) =
      .next (s.advance.setMem (s.mem.fill (indexAddr s) bs)) := by
  rw [writeBytes_ok _ _ _ (.inr h)]
  rfl

/-- A store that reaches 4096 is the fault entry at the first such address (20_memory.md R57). -/
theorem settle_writeBytes_error {i : Instr} {s : State} {bs : List Byte} (hbs : bs ≠ [])
    (h : Config.memSize < indexAddr s + bs.length) :
    settle i s (writeBytes s.advance (indexAddr s) bs) =
      .next (faultEntry s 3 (encode i) (BitVec.ofNat 16 (max (indexAddr s) 4096))) := by
  rw [writeBytes_error _ _ _ hbs h]
  rfl

theorem bcdDigits_length (v : Byte) : (bcdDigits v).length = 3 := rfl

/-- The k-th digit as a number: each is below 256 (R173). -/
theorem bcdDigits_getD_toNat (v : Byte) :
    ((bcdDigits v).getD 0 0).toNat = v.toNat / 100 ∧
    ((bcdDigits v).getD 1 0).toNat = v.toNat / 10 % 10 ∧
    ((bcdDigits v).getD 2 0).toNat = v.toNat % 10 := by
  simp only [bcdDigits, List.getD_cons_zero, List.getD_cons_succ, BitVec.toNat_ofNat]
  omega

/-- A byte of a filled block. -/
theorem Memory.read_fill_of_lt {m : Memory} (h : m.wf) {a : Nat} {bs : List Byte}
    (ha : a + bs.length ≤ Config.memSize) {k : Nat} (hk : k < bs.length) :
    (m.fill a bs).read (a + k) = bs.getD k 0 := by
  rw [Memory.read_fill h a bs ha, if_pos (by omega), Nat.add_sub_cancel_left]

/-- A byte outside a filled block. -/
theorem Memory.read_fill_of_not_mem {m : Memory} (h : m.wf) {a : Nat} {bs : List Byte}
    (ha : a + bs.length ≤ Config.memSize) {b : Nat} (hb : ¬(a ≤ b ∧ b < a + bs.length)) :
    (m.fill a bs).read b = m.read b := by
  rw [Memory.read_fill h a bs ha, if_neg hb]

/-- Settles O43: the three digits are the bytes copied. -/
theorem bcdStoresThreeDigits : Obligations.BcdStoresThreeDigits := by
  intro x s
  refine ⟨encodedAs_pattern (.ldBVx x), fun hwf haddr => ?_⟩
  have hlen := bcdDigits_length (s.reg x)
  have hfit : indexAddr s + (bcdDigits (s.reg x)).length ≤ Config.memSize := haddr
  obtain ⟨hhundreds, htens, hones⟩ := bcdDigits_getD_toNat (s.reg x)
  refine ⟨_, settle_writeBytes_ok hfit, by simp, rfl, ?_, ?_, ?_, fun a ha => ?_⟩
  · rw [← hhundreds]
    exact congrArg _ (Memory.read_fill_of_lt hwf hfit (k := 0) (by omega))
  · rw [← htens]
    exact congrArg _ (Memory.read_fill_of_lt hwf hfit (k := 1) (by omega))
  · rw [← hones]
    exact congrArg _ (Memory.read_fill_of_lt hwf hfit (k := 2) (by omega))
  · exact Memory.read_fill_of_not_mem hwf hfit (by omega)

/-- Fx55 inside memory copies V0 to Vx to I upward. -/
theorem exec_stRegs {x : Reg} {s : State} (h : indexAddr s + x.val < 4096) :
    exec (.stRegs x) s = .next (s.advance.setMem (s.mem.fill (indexAddr s) (regBlock s.V x))) :=
  settle_writeBytes_ok (by
    rw [regBlock_length]
    exact h)

/-- A byte of the stored block is the register at its offset. -/
theorem read_fill_regBlock {s : State} (hwf : s.mem.wf) {x k : Reg}
    (h : indexAddr s + x.val < 4096) (hk : k ≤ x) :
    (s.mem.fill (indexAddr s) (regBlock s.V x)).read (indexAddr s + k.val) = s.reg k := by
  have hlen := regBlock_length s.V x
  have hkx : k.val ≤ x.val := hk
  rw [Memory.read_fill_of_lt hwf (by simp only [Config.memSize]; omega) (by omega),
    regBlock_getD s.V x k hk, State.reg_eq]

/-- Settles O44: the registers are the bytes copied. -/
theorem stRegsStoresTheBlock : Obligations.StRegsStoresTheBlock := by
  intro x s
  refine ⟨encodedAs_pattern (.stRegs x), fun hwf haddr => ?_⟩
  have hlen := regBlock_length s.V x
  refine ⟨_, exec_stRegs haddr, by simp, rfl, fun k hk => read_fill_regBlock hwf haddr hk,
    fun a ha => ?_⟩
  exact Memory.read_fill_of_not_mem hwf (by simp only [Config.memSize]; omega) (by omega)

/-- Settles O46: both stores are at least one byte long. -/
theorem storesOutsideMemoryFault : Obligations.StoresOutsideMemoryFault := by
  intro x s
  constructor
  · intro h
    refine settle_writeBytes_error (by simp [bcdDigits]) ?_
    rw [bcdDigits_length]
    exact Nat.lt_succ_of_le h
  · intro h
    have hlen := regBlock_length s.V x
    refine settle_writeBytes_error (List.ne_nil_of_length_pos (by omega)) ?_
    rw [hlen]
    exact Nat.lt_succ_of_le h

/-! Loads -/

/-- Fx65 inside memory loads the bytes from I upward. -/
theorem exec_ldRegs {x : Reg} {s : State} (h : indexAddr s + x.val < 4096) :
    exec (.ldRegs x) s = .next (s.advance.setRegs (loadBlock s.V
      ((List.range (x.val + 1)).map fun k => s.mem.read (indexAddr s + k)))) := by
  simp only [exec, execLdRegs, readBytes_ok s.advance (indexAddr s) (x.val + 1) (.inr h)]
  rfl

/-- A register loaded from the block: the byte at its offset up to x, as before above x. -/
theorem loadBlock_range_get (V : RegFile) (f : Nat → Byte) (x r : Reg) :
    (loadBlock V ((List.range (x.val + 1)).map f))[r.val] =
      if r ≤ x then f r.val else V[r.val] := by
  split
  · next hr =>
    have hlt : r.val < x.val + 1 := Nat.lt_succ_of_le hr
    simp [loadBlock_get, hlt]
  · next hr => exact loadBlock_get_of_lt V _ (by simp) (not_le.mp hr)

/-- Settles O45: the register file is the one loaded from the block. -/
theorem ldRegsLoadsTheBlock : Obligations.LdRegsLoadsTheBlock := by
  intro x s
  refine ⟨encodedAs_pattern (.ldRegs x), fun haddr => ⟨_, exec_ldRegs haddr, by simp, rfl, ?_⟩⟩
  exact loadBlock_range_get s.V _ x

/-- Settles O47: a block read that reaches 4096 raises at the first such address. -/
theorem loadsOutsideMemoryFault : Obligations.LoadsOutsideMemoryFault := by
  intro x y n s
  constructor
  · intro h
    have hread := readBytes_error s.advance (indexAddr s) (x.val + 1) (by omega)
      (Nat.lt_succ_of_le h)
    simp only [exec, execLdRegs, hread]
    rfl
  · intro hn h
    have hread := readBytes_error s.advance (indexAddr s) n.toNat hn
      (by simp only [Config.memSize]; omega)
    simp only [exec, execDrw, hread]
    rfl

/-- Settles O48: each byte the load reads is the register the store wrote there. -/
theorem storeThenLoadRestoresRegisters : Obligations.StoreThenLoadRestoresRegisters := by
  intro x s t u hwf haddr hstore hmem hI
  rw [exec_stRegs haddr] at hstore
  cases hstore
  have hindex : indexAddr u = indexAddr s := congrArg BitVec.toNat hI
  obtain ⟨-, hload⟩ := ldRegsLoadsTheBlock x u
  obtain ⟨v, hexec, -, -, hreg⟩ := hload (by rwa [hindex])
  refine ⟨v, hexec, fun r hr => ?_, fun r hr => ?_⟩
  · rw [hreg, if_pos hr, hmem, hindex]
    exact read_fill_regBlock hwf haddr hr
  · rw [hreg, if_neg (not_le.mpr hr)]

end Sys2Proof.Machine

/-!
PROOFS. Drawing a sprite (spec/44_display.md R192 to R197).
-/

namespace Sys2Proof.Machine

/-- The sprite rows that Dxyn reads at I (R192). -/
def spriteRows (s : State) (n : Nat) : List Byte :=
  (List.range n).map fun k => s.mem.read (indexAddr s + k)

/-- Dxyn inside memory draws its rows on the advanced working copy. -/
theorem exec_drw {x y : Reg} {n : Nibble} {s : State}
    (h : n.toNat = 0 ∨ indexAddr s + n.toNat ≤ 4096) :
    exec (.drw x y n) s = .next (drawSprite s.advance x y (spriteRows s n.toNat)) := by
  simp only [exec, execDrw, readBytes_ok s.advance (indexAddr s) n.toNat h]
  rfl

/-- The rows read at I cover what the claims call the sprite. -/
theorem bytesCover_spriteRows (s : State) (n x0 y0 px py : Nat) :
    bytesCover (spriteRows s n) x0 y0 px py = spriteCovers s n x0 y0 px py := by
  have hlen : (spriteRows s n).length = n := by simp [spriteRows]
  rw [bytesCover, spriteCovers, hlen]
  by_cases h : x0 ≤ px ∧ px < x0 + 8 ∧ y0 ≤ py ∧ py < y0 + n
  · have hrow : (spriteRows s n).getD (py - y0) 0 = s.mem.read (indexAddr s + (py - y0)) := by
      simp [spriteRows, show py - y0 < n by omega]
    rw [hrow]
  · simp only [h, decide_false, Bool.false_and]

/-- A pixel on the screen after the draw. -/
theorem pix_drawSprite (s : State) (x y : Reg) (n px py : Nat) (hx : px < 64) (hy : py < 32) :
    pix (drawSprite s.advance x y (spriteRows s n)).fb px py =
      (pix s.fb px py ^^
        spriteCovers s n ((s.reg x).toNat % 64) ((s.reg y).toNat % 32) px py) := by
  simp only [drawSprite, State.setVF_fb, State.setScreen_fb, pix_drawRows, bytesCover_spriteRows]
  simp [hx, hy, originX, originY]

/-- VF after the draw: whether a covered pixel was on (R196). -/
theorem drawSprite_vf (s : State) (x y : Reg) (n : Nat) :
    ∃ hit : Bool, (drawSprite s.advance x y (spriteRows s n)).reg 15 = flagOf hit ∧
      (hit = true ↔ ∃ px py, pix s.fb px py = true ∧
        spriteCovers s n ((s.reg x).toNat % 64) ((s.reg y).toNat % 32) px py = true) := by
  refine ⟨_, (State.setVF_reg _ _ 15).trans (if_pos rfl), ?_⟩
  simp [hit_drawRows, bytesCover_spriteRows, originX, originY]

/-- A pixel that is on is on the screen. -/
theorem lt_of_pix {f : Screen} {px py : Nat} (h : pix f px py = true) : px < 64 ∧ py < 32 := by
  by_contra hoff
  rw [pix_off hoff] at h
  cases h

/-- Settles O50: the drawn rows are the sprite at I, and a collision is a covered pixel that was on,
which is on the screen. -/
theorem drwTogglesTheCoveredPixels : Obligations.DrwTogglesTheCoveredPixels := by
  intro x y n s
  refine ⟨encodedAs_pattern (.drw x y n), fun hfit => ?_⟩
  obtain ⟨hit, hvf, hiff⟩ := drawSprite_vf s x y n.toNat
  refine ⟨_, exec_drw hfit, by simp, rfl, fun r hr => ?_, pix_drawSprite s x y n.toNat, ?_, ?_⟩
  · simp [drawSprite, hr]
  · rintro ⟨px, py, -, -, hon, hcover⟩
    rw [hvf, hiff.mpr ⟨px, py, hon, hcover⟩]
    rfl
  · intro hnone
    have hno : hit = false := by
      rw [Bool.eq_false_iff]
      intro h
      obtain ⟨px, py, hon, hcover⟩ := hiff.mp h
      obtain ⟨hx, hy⟩ := lt_of_pix hon
      rw [hnone px py hx hy hcover] at hon
      cases hon
    rw [hvf, hno]
    rfl

/-- A sprite covers the same pixels wherever I and the bytes of memory are the same. -/
theorem spriteCovers_congr {s t : State} (hI : t.I = s.I) (hmem : Part.mem.same s t) :
    spriteCovers t = spriteCovers s := by
  funext n x0 y0 px py
  rw [spriteCovers, spriteCovers, indexAddr, indexAddr, hI, hmem]

/-- Settles O51: the second draw sees the same origin, I and memory, so it toggles the same pixels;
a pixel the first draw turned on is covered, and the second draw hits it. -/
theorem doubleDrawRestoresTheScreen : Obligations.DoubleDrawRestoresTheScreen := by
  intro x y n s t u hx hy hfit hfirst hsecond
  obtain ⟨-, hdraw⟩ := drwTogglesTheCoveredPixels x y n s
  obtain ⟨t', hexec, hframe, -, hreg, hpix, -⟩ := hdraw hfit
  cases hfirst.symm.trans hexec
  have hI : t.I = s.I := hframe .I (by decide)
  have hcovers := spriteCovers_congr hI (hframe .mem (by decide))
  obtain ⟨-, hdraw⟩ := drwTogglesTheCoveredPixels x y n t
  rw [indexAddr, hI] at hdraw
  obtain ⟨u', hexec, -, -, -, hpix', hhit, -⟩ := hdraw hfit
  cases hsecond.symm.trans hexec
  rw [hreg x hx, hreg y hy, hcovers] at hpix' hhit
  constructor
  · intro px py
    by_cases hon : px < 64 ∧ py < 32
    · rw [hpix' px py hon.1 hon.2, hpix px py hon.1 hon.2, Bool.xor_assoc, Bool.xor_self,
        Bool.xor_false]
    · rw [pix_off hon, pix_off hon]
  · rintro ⟨px, py, hoff, hon⟩
    obtain ⟨hx', hy'⟩ := lt_of_pix hon
    have hcover := hpix px py hx' hy'
    rw [hon, hoff, Bool.false_xor] at hcover
    exact hhit ⟨px, py, hx', hy', hon, hcover.symm⟩

end Sys2Proof.Machine

/-!
PROOFS. The keypad and timer instructions (spec/45_keypad_timers.md R210 to R215).
-/

namespace Sys2Proof.Machine

theorem keyAt_of_toNat_eq {s : State} {v : Byte} {k : Key} (h : v.toNat = k.val) :
    keyAt s v = .ok s.key[k.val] := by
  rw [keyAt_ok s v (by omega)]
  simp only [h]

/-- Settles O52: both are skips, on the slot and on its negation. -/
theorem skipOnKey : Obligations.SkipOnKey := by
  intro x s k
  refine ⟨encodedAs_pattern (.skp x), encodedAs_pattern (.sknp x), fun hk => ?_⟩
  have hkey := keyAt_of_toNat_eq (s := s) hk
  constructor
  · have hskip : exec (.skp x) s = .next (s.advance.skipIf s.key[k.val]) := by
      simp only [exec, execSkp, hkey, settle_ok]
    exact exec_of_skipIf hskip
  · have hskip : exec (.sknp x) s = .next (s.advance.skipIf (!s.key[k.val])) := by
      simp only [exec, execSknp, hkey, settle_ok]
    obtain ⟨t, hexec, hframe, hpc⟩ := exec_of_skipIf hskip
    refine ⟨t, hexec, hframe, ?_⟩
    rw [hpc]
    cases s.key[k.val] <;> rfl

/-- A byte as a 16-bit word is the word of its number. -/
theorem zext_eq_ofNat (v : Byte) : v.zext = BitVec.ofNat 16 v.toNat :=
  (BitVec.ofNat_toNat 16 v).symm

/-- Settles O53: no slot has the index, and the key fault carries it. -/
theorem keyIndexAbove15Faults : Obligations.KeyIndexAbove15Faults := by
  intro x s h
  have hkey := keyAt_error s (s.reg x) h
  rw [zext_eq_ofNat] at hkey
  constructor
  · simp only [exec, execSkp, hkey]
    rfl
  · simp only [exec, execSknp, hkey]
    rfl

/-- Settles O54: the byte written is DT before the timer stage. -/
theorem ldVxDTReadsTheTimer : Obligations.LdVxDTReadsTheTimer := fun x s =>
  ⟨encodedAs_pattern (.ldVxDT x), _, rfl, regWrite_advance_setReg s x s.DT⟩

/-- The converse of `lowestKey_some`: a pressed key with none pressed below it is the lowest. -/
theorem lowestKey_eq_some {key : Keypad} {k : Key} (hk : key[k.val] = true)
    (hlow : ∀ j : Key, j < k → key[j.val] = false) : lowestKey key = some k := by
  cases hl : lowestKey key with
  | none => simp [lowestKey_none.mp hl k] at hk
  | some l =>
    obtain ⟨hpressed, hnone⟩ := lowestKey_some hl
    rcases lt_trichotomy l k with hlt | rfl | hgt
    · simp [hlow l hlt] at hpressed
    · rfl
    · simp [hnone k hgt] at hk

/-- Settles O55: the lowest pressed key is written to V[x]; with none, the advanced `pc` less 2 is
the fetch address. -/
theorem ldVxKWaitsForAKey : Obligations.LdVxKWaitsForAKey := by
  intro x s
  refine ⟨encodedAs_pattern (.ldVxK x), fun k hk hlow => ?_, fun hnone => ?_⟩
  · have hexec : exec (.ldVxK x) s = .next (s.advance.setReg x (BitVec.ofNat 8 k.val)) := by
      simp only [exec, execLdVxK, lowestKey_eq_some hk hlow]
    refine ⟨_, _, hexec, regWrite_advance_setReg s x _, ?_⟩
    rw [BitVec.toNat_ofNat, Nat.mod_eq_of_lt (by omega)]
  · have hexec : exec (.ldVxK x) s = .next (s.advance.setPc (s.advance.pc - 2)) := by
      simp only [exec, execLdVxK, lowestKey_none.mpr hnone]
      rfl
    exact ⟨_, hexec, by simp, BitVec.add_sub_cancel ..⟩

/-- The end of a step after an execute stage that leaves the core RUNNING is the timer stage. -/
theorem retire_of_running {o : Out} {t : State} (ho : o = .next t) (h : t.run = .running) :
    retire o = .next (timerStage t) := by
  rw [ho, retire, h]
  rfl

/-- Settles O56: the register is copied to the timer, which the timer stage counts down. -/
theorem timerWritesSetOneTimer : Obligations.TimerWritesSetOneTimer := by
  intro x s
  constructor
  · refine ⟨encodedAs_pattern (.ldDTVx x), s.advance.setDT (s.reg x), rfl, by simp, rfl, rfl, ?_⟩
    exact fun hrun => ⟨_, retire_of_running rfl hrun, countDown_toNat _⟩
  · refine ⟨encodedAs_pattern (.ldSTVx x), s.advance.setST (s.reg x), rfl, by simp, rfl, rfl, ?_⟩
    exact fun hrun => ⟨_, retire_of_running rfl hrun, countDown_toNat _⟩

end Sys2Proof.Machine

/-!
PROOFS. The host ports (spec/60_exceptions.md R245, R252, R253), loading and reset
(spec/70_reset_and_hazards.md R270 to R275).
-/

namespace Sys2Proof.Machine

/-- The memory after a load, byte by byte: the program, the font, and every other byte as before
(R273). -/
theorem loaded_mem_read {s : State} (hwf : s.mem.wf) (font : FontTable) {bytes : List Byte}
    (h : bytes.length ≤ 3584) (a : Nat) :
    (s.loaded font bytes).mem.read a =
      if 0x200 ≤ a ∧ a < 0x200 + bytes.length then bytes.getD (a - 0x200) 0
      else if 0x050 ≤ a ∧ a < 0x0A0 then font.toList.getD (a - 0x050) 0 else s.mem.read a := by
  have hfont : 0x050 + font.toList.length ≤ Config.memSize := by simp
  have hprog : 0x200 + bytes.length ≤ Config.memSize := Nat.add_le_add_left h 0x200
  have hlen : font.toList.length = 80 := by simp
  have hfill := Memory.fill_wf hwf 0x050 font.toList hfont
  refine (Memory.read_fill hfill 0x200 bytes hprog a).trans ?_
  rw [Memory.read_fill hwf 0x050 font.toList hfont, hlen]

/-- Settles O57: font and program do not overlap, and only memory and `pc` are written. -/
theorem loadWritesFontAndProgram : Obligations.LoadWritesFontAndProgram := by
  intro font bytes s hwf hlen
  have hread := loaded_mem_read hwf font hlen
  have hframe : OnlyChanges [.mem, .pc] s (s.loaded font bytes) := by simp [State.loaded]
  refine ⟨_, if_pos hlen, hframe, rfl, loaded_mem_wf hwf font hlen,
    fun i => ?_, fun j hj => ?_, fun a hfont hprog => ?_⟩
  · rw [hread, if_neg (by omega), if_pos (by omega), Nat.add_sub_cancel_left]
    simp
  · rw [hread, if_pos (by omega), Nat.add_sub_cancel_left]
  · rw [hread, if_neg hprog, if_neg hfont]

/-- Settles O58: the length test fails. -/
theorem loadTooLongChangesNothing : Obligations.LoadTooLongChangesNothing := fun _ _ _ h =>
  if_neg (Nat.not_le.mpr h)

@[simp] theorem onlyChanges_setKey {ps : List Part} {s t : State} {id : Key} {b : Bool}
    (h : .key ∈ ps) : OnlyChanges ps s (setKey id b t) ↔ OnlyChanges ps s t := onlyChanges_congr h

theorem pixelBit_eq_one_iff (b : Bool) : pixelBit b = 1 ↔ b = true := by
  cases b <;> decide

/-- Settles O59: one slot is set, and each view is read off the state. -/
theorem hostPortsShowAndSetOneThing : Obligations.HostPortsShowAndSetOneThing := by
  refine ⟨fun id b s => ⟨by simp, fun k => ?_⟩, fun s i => ?_, fun s => ?_⟩
  · simp [Vector.getElem_set, Fin.ext_iff, eq_comm]
  · rw [← pixelBit_eq_one_iff]
    simp [framebufferView]
  · simp [toneOn]

/-- Settles O60: reset is construction anew, the draw counter apart. -/
theorem resetZeroesTheState : Obligations.ResetZeroesTheState := by
  intro s t
  refine ⟨fun r => ?_, rfl, rfl, fun j => ?_, rfl, rfl, rfl, fun k => ?_, pix_blankScreen,
    fun _ => rfl, rfl, rfl, rfl, rfl, rfl, rfl⟩
  · exact Vector.getElem_replicate ..
  · exact Vector.getElem_replicate ..
  · exact Vector.getElem_replicate ..

end Sys2Proof.Machine
